-- ==== Sys2Proof/Word.lean ====
section
/-!
DEFINITION. The word types of the core: bytes, lanes, command words, response words.
Bit 0 is the least significant bit of every word (spec/00_scope.md rule R10).
-/

namespace Sys2Proof

/-- A byte (rule R50: a byte is 8 bits). -/
abbrev Byte := BitVec 8

/-- One lane of the permutation state (rule R22: 64 bits). -/
abbrev Lane := BitVec 64

/-- A command word on the port `cmd` (rules R70, R72). -/
abbrev CommandWord := BitVec 16

/-- A response word on the port `rsp` (rules R70, R74). -/
abbrev ResponseWord := BitVec 10

end Sys2Proof
end

