-- ==== Sys2Proof/Config.lean ====
section
/-!
DEFINITION. The parameters of the core. Every algorithmic parameter is fixed by the spec
(spec/00_scope.md rule R8); the two timing parameters of rule R9 are read by no rule that computes
a value and have no place here (notes/assumptions/9.md). No rule draws a free value (rule R14),
so there is none.
-/

namespace Sys2Proof.Config

/-- The identity string of rule R1; no command reads it. -/
def identity : String := "ES-KECCAK256-CORE/1"

/-- `LANES`: lanes in the state (rule R8). -/
abbrev lanes : Nat := 25

/-- `W`: bits per lane (rule R8). -/
abbrev laneBits : Nat := 64

/-- `NR`: rounds per permutation (rule R8). -/
abbrev rounds : Nat := 24

/-- `STATE_BYTES`: bytes in the state image (rule R8). -/
abbrev stateBytes : Nat := 200

/-- `RATE`: the rate in bytes, which is also the size of the absorption buffer (rules R8, R25). -/
abbrev rate : Nat := 136

/-- `CAP`: the capacity in bytes (rule R8). -/
abbrev capacity : Nat := 64

/-- The number of lanes of the rate part: 17 whole lanes (rules R8, R23). -/
abbrev rateLanes : Nat := 17

/-- `DIGEST_BYTES`: the digest length in bytes (rule R8). -/
abbrev digestBytes : Nat := 32

/-- `DSEP`: the first padding byte, 0x01 and never 0x06 (rules R8, R137). -/
abbrev dsep : Byte := 0x01

/-- `PADEND`: the value ORed into the last byte of the padded block (rule R8). -/
abbrev padEnd : Byte := 0x80

/-- The number of control registers (rule R30). -/
abbrev controlRegisters : Nat := 2

end Sys2Proof.Config
end

