-- ==== Sys2Proof/Syntax.lean ====
section
/-!
DEFINITION. The instructions of the core: one constructor per row of spec/opcode_table.json, five host
commands (CMD16), nine sequencer codes (UOP4) and two composites without a code.
-/

namespace Sys2Proof

/-- The instructions of spec/opcode_table.json, in the table's order. -/
inductive Instr where
  /-- `INIT`: create an empty context (spec/42_control.md rule R153). -/
  | init
  /-- `ABSORB b`: append one message byte (spec/41_sponge.md rule R124). -/
  | absorb (b : Byte)
  /-- `FINAL`: pad, absorb the last block, make the digest valid (spec/41_sponge.md rule R130). -/
  | final
  /-- `RDDIG i`: read digest byte `i`; every value of the operand decodes (spec/41_sponge.md rule R134). -/
  | rddig (i : Byte)
  /-- `RDCR n`: read control register `n`; every value of the operand decodes (spec/42_control.md rule R157). -/
  | rdcr (n : Byte)
  /-- `IDLE`: wait, deliver a response, or accept and dispatch one command word (spec/42_control.md rule R160). -/
  | idle
  /-- `THETA` (spec/40_permutation.md rule R91). -/
  | theta
  /-- `RHO` (spec/40_permutation.md rule R92). -/
  | rho
  /-- `PI` (spec/40_permutation.md rule R93). -/
  | pi
  /-- `CHI` (spec/40_permutation.md rule R94). -/
  | chi
  /-- `IOTA`, with its round index in `SEQ.rnd` (spec/40_permutation.md rule R95). -/
  | iota
  /-- `XORIN` (spec/41_sponge.md rule R121). -/
  | xorin
  /-- `BUFCLR` (spec/41_sponge.md rule R122). -/
  | bufclr
  /-- `SETDV` (spec/41_sponge.md rule R132). -/
  | setdv
  /-- `ROUND r`, a composite without a code (spec/40_permutation.md rule R100). -/
  | round (r : Fin 24)
  /-- `PERMUTE`, a composite without a code (spec/40_permutation.md rule R101). -/
  | permute
deriving DecidableEq, Repr

end Sys2Proof
end

