-- ==== Sys2Proof/WellFormed.lean ====
section
/-!
DEFINITION. Which instructions have a legal operand (spec/30_encoding.md rule R73). An instruction that
is not well formed still decodes and still has a meaning: it is rejected with `ERR_RANGE`.
-/

namespace Sys2Proof

/-- The operand is one that rule R73 calls legal: a digest index in 0..31, a control register number
in 0..1. The round index of `ROUND` is in 0..23 by its type (rule R100). -/
def Instr.wellFormed : Instr → Bool
  | .init => true
  | .absorb _ => true
  | .final => true
  | .rddig i => decide (i.toNat < Config.digestBytes)
  | .rdcr n => decide (n.toNat < Config.controlRegisters)
  | .idle => true
  | .theta => true
  | .rho => true
  | .pi => true
  | .chi => true
  | .iota => true
  | .xorin => true
  | .bufclr => true
  | .setdv => true
  | .round _ => true
  | .permute => true

end Sys2Proof
end

