-- ==== Sys2Proof/Decode.lean ====
section
/-!
DEFINITION. Decoding and encoding of command words and sequencer codes (spec/30_encoding.md rules R72,
R73, R75 to R78). Decoding of a word is total and depends on the word alone (lines 1 to 3 of rule
R76); the range and phase checks (lines 4 to 7) are in the meanings, which reject with the cause.
-/

namespace Sys2Proof

/-- Why a 16-bit word is no command: each of these is `ERR_ILLEGAL` (rules R76, R181). -/
inductive IllegalWord where
  /-- `op` is not in 1..5 (rule R76 line 1). -/
  | reservedOpcode
  /-- `rsv` is not 0 (rule R76 line 2). -/
  | reservedBits
  /-- `INIT` or `FINAL` with `imm` not 0 (rule R76 line 3). -/
  | operandNotZero
deriving DecidableEq, Repr

/-- The five host commands, with the operand as it stands in the word (rules R73, R75). -/
inductive Command where
  | init
  | absorb (b : Byte)
  | final
  | rddig (i : Byte)
  | rdcr (n : Byte)
deriving DecidableEq, Repr

/-- The instruction a command is. -/
def Command.instr : Command → Instr
  | .init => .init
  | .absorb b => .absorb b
  | .final => .final
  | .rddig i => .rddig i
  | .rdcr n => .rdcr n

/-- `op`, bits 15:12 (rule R72). -/
def opField (w : CommandWord) : BitVec 4 := w.extractLsb' 12 4

/-- `rsv`, bits 11:8 (rule R72). -/
def rsvField (w : CommandWord) : BitVec 4 := w.extractLsb' 8 4

/-- `imm`, bits 7:0, used as it stands (rules R72, R75). -/
def immField (w : CommandWord) : Byte := w.extractLsb' 0 8

/-- Lines 1 to 3 of rule R76, in that order: what a word names, whatever the phase. -/
def decodeCommand (w : CommandWord) : Except IllegalWord Command :=
  if opField w = 0 ∨ 5 < (opField w).toNat then .error .reservedOpcode
  else if rsvField w ≠ 0 then .error .reservedBits
  else if (opField w = 1 ∨ opField w = 3) ∧ immField w ≠ 0 then .error .operandNotZero
  else if opField w = 1 then .ok .init
  else if opField w = 2 then .ok (.absorb (immField w))
  else if opField w = 3 then .ok .final
  else if opField w = 4 then .ok (.rddig (immField w))
  else .ok (.rdcr (immField w))

/-- The nine sequencer codes of rule R78; 0x9..0xF are never entered and name nothing. -/
def decodeUop (c : BitVec 4) : Option Instr :=
  match c.toNat with
  | 0 => some .idle
  | 1 => some .theta
  | 2 => some .rho
  | 3 => some .pi
  | 4 => some .chi
  | 5 => some .iota
  | 6 => some .xorin
  | 7 => some .bufclr
  | 8 => some .setdv
  | _ => none

/-- The code of an instruction: a command word, or a value of `SEQ.uop`. -/
inductive Code where
  | command (w : CommandWord)
  | uop (c : BitVec 4)
deriving DecidableEq, Repr

/-- What a code names; nothing for a word or a sequencer code that names no instruction. -/
def decodeCode : Code → Option Instr
  | .command w =>
    match decodeCommand w with
    | .ok c => some c.instr
    | .error _ => none
  | .uop c => decodeUop c

/-- The command word of the opcode map (rule R73): `op`, then `rsv` = 0, then `imm`. -/
def commandWord (op : BitVec 4) (imm : Byte) : CommandWord := op ++ 0#4 ++ imm

/-- The code of an instruction (rules R73, R78); the composites `ROUND` and `PERMUTE` have none
(rules R100, R101). -/
def encode : Instr → Option Code
  | .init => some (.command (commandWord 1 0))
  | .absorb b => some (.command (commandWord 2 b))
  | .final => some (.command (commandWord 3 0))
  | .rddig i => some (.command (commandWord 4 i))
  | .rdcr n => some (.command (commandWord 5 n))
  | .idle => some (.uop 0)
  | .theta => some (.uop 1)
  | .rho => some (.uop 2)
  | .pi => some (.uop 3)
  | .chi => some (.uop 4)
  | .iota => some (.uop 5)
  | .xorin => some (.uop 6)
  | .bufclr => some (.uop 7)
  | .setdv => some (.uop 8)
  | .round _ => none
  | .permute => none

/-- A row of spec/opcode_table.json as a code: 16 bits are a command word (format CMD16); a row of
one byte is a sequencer code (format UOP4, 4 bits), whose bits above bit 3 are 0
(notes/assumptions/16.md). A COMPOSITE row has no bits and no code. -/
def tableCode (nbits w : Nat) : Option Code :=
  if nbits = 16 then (if w < 65536 then some (.command (BitVec.ofNat 16 w)) else none)
  else if 1 ≤ nbits ∧ nbits ≤ 8 then (if w < 16 then some (.uop (BitVec.ofNat 4 w)) else none)
  else none

/-- The instruction the decoder reads from a row of the opcode table whose bits are `w`. -/
def decodeTableWord (nbits w : Nat) : Option Instr :=
  match tableCode nbits w with
  | some c => decodeCode c
  | none => none

end Sys2Proof
end

