-- ==== Sys2Proof/Machine/State.lean ====
section
/-!
DEFINITION. The state of the core: everything spec/10_state.md rule R20 lists, and three fields of the
model's own at the ports (the host's moves still to come, the response latch, the responses
delivered; notes/assumptions/2.md and 3.md). Plain data throughout.
-/

namespace Sys2Proof.Machine

/-- The 25 lanes `A[0..24]` (rules R20, R22); lane (x, y) is `A[x + 5*y]` (rule R11). -/
abbrev Lanes := Vector Lane 25

/-- The byte space `BUF` as (address, byte) pairs in one canonical form: addresses strictly rising and
below 136, no byte 0x00 listed. An unlisted address reads as 0x00, the reset value of the buffer
(rules R33, R50; notes/assumptions/5.md). -/
abbrev Memory := List Host.Cell

/-- The values of `SEQ.uop` (rules R31, R78). The codes 9..15 are never entered, so the nine values are
an enumeration, as rule R78 and spec/93_implementation_defined.md U6 allow. -/
inductive Uop where
  | idle
  | theta
  | rho
  | pi
  | chi
  | iota
  | xorin
  | bufclr
  | setdv
deriving DecidableEq, Repr

/-- What the host does to the core (rules R150, R165); a move is for one step of the core, but that a
word presented while the core is not ready is held until it is accepted (rule R70). Taking a
response needs no move (notes/assumptions/12.md). -/
inductive HostMove where
  /-- Present a command word on `cmd` and hold it until it is accepted (rule R70). -/
  | present (w : CommandWord)
  /-- Do nothing for one step (rule R165: pause for any time). -/
  | pause
  /-- `rst` = 1 for one step (rules R210, R212). -/
  | reset
deriving DecidableEq, Repr

/-- The causes of a rejection (rule R181). -/
inductive Cause where
  | illegal
  | range
  | seq
deriving DecidableEq, Repr

/-- The architectural state of rule R20, then the model's own port fields. -/
structure State where
  /-- `A[0..24]`. -/
  lanes : Lanes
  /-- `BUF[0..135]`. -/
  buf : Memory
  /-- `CNT`, 8 bits. -/
  cnt : BitVec 8
  /-- `STATUS.DV`, 1 bit. -/
  dv : Bool
  /-- `STATUS.ERR`, 2 bits. -/
  err : BitVec 2
  /-- `SEQ.uop`. -/
  uop : Uop
  /-- `SEQ.rnd`, 0..23. -/
  rnd : Fin 24
  /-- `SEQ.fin`, 1 bit. -/
  fin : Bool
  /-- The response latched at dispatch and not delivered yet (rules R160, R163). Not architectural. -/
  latch : Option ResponseWord
  /-- The host's moves still to come, the next one first: the inputs. Not architectural. -/
  host : List HostMove
  /-- The responses delivered so far, oldest first: the outputs. Not architectural. -/
  rsp : List ResponseWord
deriving DecidableEq, Repr

/-- Why the machine stops with a fault. -/
inductive Fault where
  /-- A write to `BUF` at an address that does not exist: raised by `ABSORB` and `FINAL` when `CNT` is
  above 135, which no run from reset reaches (rules R36, R55, R123). Safe. -/
  | bufferAddress
deriving DecidableEq, Repr

/-- Why an instruction has no meaning. -/
inductive Refusal where
  /-- The instruction has no meaning yet: answered only by an arm of `exec`. Safe. -/
  | notModelled (mnemonic : String)
deriving DecidableEq, Repr

/-- The state right after reset (rules R33, R210): every architectural field at its reset value. The
host has no move to come, no response waits and none has been delivered (notes/assumptions/17.md). -/
def State.reset : State where
  lanes := Vector.replicate 25 0
  buf := []
  cnt := 0
  dv := false
  err := 0
  uop := .idle
  rnd := 0
  fin := false
  latch := none
  host := []
  rsp := []

end Sys2Proof.Machine
end

