-- ==== Sys2Proof/Machine/Ops.lean ====
section
/-!
DEFINITION. The named operations over the two byte spaces and the lanes, the sequencer's codes, the
response port, the host's moves, and the rejection of a command as one shared operation.
-/

namespace Sys2Proof.Machine

/-! ## The byte space `BUF` (rules R13, R50) -/

/-- `MemRead(BUF, i, 1)`: the byte at address `i`; an unlisted address reads as 0x00. -/
def Memory.read : Memory → Nat → Byte
  | [], _ => 0
  | (k, v) :: m, i => if k = i then v else Memory.read m i

/-- `MemWrite(BUF, i, 1, v)`: write byte `v` at address `i`, keeping the canonical form. -/
def Memory.write : Memory → Nat → Byte → Memory
  | [], i, v => if v = 0 then [] else [(i, v)]
  | (k, u) :: m, i, v =>
    if i < k then (if v = 0 then (k, u) :: m else (i, v) :: (k, u) :: m)
    else if i = k then (if v = 0 then m else (i, v) :: m)
    else (k, u) :: Memory.write m i v

/-- Write 0x00 at the `n` addresses `i`, `i+1`, ..., `i+n-1`. -/
def Memory.zeroFill : Memory → Nat → Nat → Memory
  | m, _, 0 => m
  | m, i, n + 1 => Memory.zeroFill (Memory.write m i 0) (i + 1) n

/-- The canonical form from address `lo` on: addresses rising from `lo`, each below 136, no byte 0x00. -/
def Memory.wfFrom : Nat → Memory → Bool
  | _, [] => true
  | lo, (k, v) :: m => decide (lo ≤ k) && decide (k < Config.rate) && (v != 0) && Memory.wfFrom (k + 1) m

/-- The canonical form of `BUF`. -/
def Memory.wf (m : Memory) : Bool := Memory.wfFrom 0 m

/-- Eight bytes as one word, the byte at the lowest address in bits 7:0 (rule R52). -/
def littleEndian (byteAt : Nat → Byte) (i : Nat) : Lane :=
  byteAt (i + 7) ++ byteAt (i + 6) ++ byteAt (i + 5) ++ byteAt (i + 4) ++
    byteAt (i + 3) ++ byteAt (i + 2) ++ byteAt (i + 1) ++ byteAt i

/-! ## The lanes and their byte view `IMG` (rules R11, R12, R51) -/

/-- `A[x,y]`, the lane at column `x`, row `y` (rule R11); coordinates in `Fin 5` are reduced modulo 5. -/
def lane (a : Lanes) (x y : Fin 5) : Lane := a[x.val + 5 * y.val]

/-- The lane array whose lane at column `x`, row `y` is `f x y`. -/
def ofLanes (f : Fin 5 → Fin 5 → Lane) : Lanes :=
  Vector.ofFn fun i => f ⟨i.val % 5, by omega⟩ ⟨i.val / 5, by omega⟩

/-- `MemRead(IMG, j, 1)`: byte `j` of the state image, little-endian within each lane (rules R12, R51). -/
def imageByte (a : Lanes) (j : Fin 200) : Byte := (a[j.val / 8]).extractLsb' (8 * (j.val % 8)) 8

/-! ## The sequencer's codes (rules R31, R78) -/

/-- The 4-bit code of a value of `SEQ.uop` (rule R78). -/
def Uop.code : Uop → BitVec 4
  | .idle => 0
  | .theta => 1
  | .rho => 2
  | .pi => 3
  | .chi => 4
  | .iota => 5
  | .xorin => 6
  | .bufclr => 7
  | .setdv => 8

/-- The value of `SEQ.uop` with a code; none for the codes that are never entered. -/
def Uop.ofCode (c : BitVec 4) : Option Uop :=
  match c.toNat with
  | 0 => some .idle
  | 1 => some .theta
  | 2 => some .rho
  | 3 => some .pi
  | 4 => some .chi
  | 5 => some .iota
  | 6 => some .xorin
  | 7 => some .bufclr
  | 8 => some .setdv
  | _ => none

/-- The instruction that `SEQ.uop` names. -/
def Uop.instr : Uop → Instr
  | .idle => .idle
  | .theta => .theta
  | .rho => .rho
  | .pi => .pi
  | .chi => .chi
  | .iota => .iota
  | .xorin => .xorin
  | .bufclr => .bufclr
  | .setdv => .setdv

/-! ## The response port (rules R71, R74, R160, R163) -/

/-- `respond(status, data)`: the word with `status` in bits 9:8 and `data` in bits 7:0 (rule R74). -/
def respond (status : BitVec 2) (data : Byte) : ResponseWord := status ++ data

/-- Latch an `OK` response with a data byte and leave the sequencer at `IDLE` (rule R160). -/
def State.answer (s : State) (data : Byte) : State :=
  { s with latch := some (respond 0 data), uop := .idle }

/-- Deliver the latched response, if one waits (rule R163). -/
def State.deliver (s : State) : State :=
  { s with latch := none, rsp := s.rsp ++ s.latch.toList }

/-! ## Rejection (rules R181, R184): the core's only exceptional event. There is no return (rule R186). -/

/-- The 2-bit code of a cause, which is also the status of its response (rules R74, R181). -/
def Cause.code : Cause → BitVec 2
  | .illegal => 1
  | .range => 2
  | .seq => 3

/-- `STATUS.ERR` keeps the first cause since reset or `INIT` (rules R29, R184). -/
def State.recordCause (c : Cause) (s : State) : State :=
  { s with err := if s.err = 0 then c.code else s.err }

/-- `Reject(c)`: record the cause if it is the first, latch the response `(c, 0x00)`, stay at `IDLE`,
and do nothing else (rules R160, R184, R185). -/
def State.reject (c : Cause) (s : State) : State :=
  { s.recordCause c with latch := some (respond c.code 0), uop := .idle }

/-! ## The host's moves (rules R70, R150, R210, R212) -/

/-- The host's next move is `rst` = 1. -/
def State.resetAsserted (s : State) : Bool :=
  match s.host with
  | .reset :: _ => true
  | _ => false

/-- Reset: every architectural field at its reset value, a response that waits is dropped, and the
host's later moves and the responses it already has are outside the core (rules R210, R212;
notes/assumptions/4.md). -/
def State.takeReset (s : State) : State :=
  { State.reset with host := s.host.tail, rsp := s.rsp }

/-- The host's next move is a pause: it presents nothing in this step. -/
def State.pausing (s : State) : Bool :=
  match s.host with
  | .pause :: _ => true
  | _ => false

/-- The host's next move is over. -/
def State.dropMove (s : State) : State := { s with host := s.host.tail }

/-- A change of the next state; a fault or a refusal stays what it is. -/
def mapNext (f : State → State) : Host.Outcome State Fault Refusal → Host.Outcome State Fault Refusal
  | .next s => .next (f s)
  | .fault r => .fault r
  | .refused r => .refused r

/-- The end of a step begun in `s`: a pause is over, a word that was not accepted is held (rule R70). -/
def endMove (s : State) (o : Host.Outcome State Fault Refusal) : Host.Outcome State Fault Refusal :=
  if s.pausing then mapNext State.dropMove o else o

/-- `cmd_ready`: the sequencer is idle and no response waits to be delivered (rule R70), and `rst` is not
asserted (rule R210). -/
def State.cmdReady (s : State) : Bool :=
  decide (s.uop = .idle) && s.latch.isNone && !s.resetAsserted

/-- The moves without the resets that come first. -/
def dropResets : List HostMove → List HostMove
  | .reset :: rest => dropResets rest
  | moves => moves

/-- The state in which the next step accepts exactly the word `w`: idle, no response waiting, and the
host presents `w` before its other moves. -/
def State.presentNext (s : State) (w : CommandWord) : State :=
  { s.deliver with uop := .idle, host := .present w :: s.host }

/-- The state in which the next step runs the micro-operation `u`. -/
def State.atUop (s : State) (u : Uop) : State := { s with uop := u, host := dropResets s.host }

/-- Place a code where the next step takes its instruction from; a sequencer code that is never
entered changes nothing. -/
def State.placeCode (s : State) : Code → State
  | .command w => s.presentNext w
  | .uop c =>
    match Uop.ofCode c with
    | some u => s.atUop u
    | none => s

end Sys2Proof.Machine
end

