-- ==== Sys2Proof/Machine/Operands.lean ====
section
/-!
DEFINITION. The operand forms. A command's only operand is `imm`, an unsigned byte used as it stands
(spec/30_encoding.md rule R75): a message byte (any value), a digest index (0..31) or a control
register number (0..1).
-/

namespace Sys2Proof.Machine

/-- The operand of `RDDIG`, when it is in range (rules R75, R76 line 4, R134). -/
def digestIndex (imm : Byte) : Option (Fin 32) :=
  if h : imm.toNat < 32 then some ⟨imm.toNat, h⟩ else none

/-- The operand of `RDCR`, when such a register exists (rules R30, R75, R76 line 5, R157). -/
def controlNumber (imm : Byte) : Option (Fin 2) :=
  if h : imm.toNat < 2 then some ⟨imm.toNat, h⟩ else none

/-- The image address of a digest byte: the digest is the first 32 bytes of the image (rule R133). -/
def digestAddress (i : Fin 32) : Fin 200 := ⟨i.val, by omega⟩

/-- `Digest[i]` (rule R133). -/
def digestByte (a : Lanes) (i : Fin 32) : Byte := imageByte a (digestAddress i)

/-- `MemRead(BUF, 8*k, 8)` for a source of bytes (rule R52). -/
def blockWord (byteAt : Nat → Byte) (k : Nat) : Lane := littleEndian byteAt (8 * k)

end Sys2Proof.Machine
end

