-- ==== Sys2Proof/Machine/Flags.lean ====
section
/-!
DEFINITION. The status register and the control registers as the host reads them
(spec/10_state.md rules R27, R30).
-/

namespace Sys2Proof.Machine

/-- `STATUS`: `DV` in bit 0, `ERR` in bits 2:1, bits 7:3 read as 0 (rules R27, R157). -/
def statusByte (s : State) : Byte := 0#5 ++ s.err ++ BitVec.ofBool s.dv

/-- The control registers: 0 is `STATUS`, 1 is `CNT` (rule R30). -/
def controlRegister (s : State) (n : Fin 2) : Byte := if n = 0 then statusByte s else s.cnt

end Sys2Proof.Machine
end

