-- ==== Sys2Proof/Machine/Permutation.lean ====
section
/-!
DEFINITION. The permutation engine (spec/40_permutation.md): the rotate primitive, the constant tables,
the five step mappings as pure functions from the old lane array to the new one (rule R107), the
composites, and the meanings of `THETA`, `RHO`, `PI`, `CHI`, `IOTA`, `ROUND` and `PERMUTE`.
The step mappings are irreducible, so that a comparison of two states never unfolds a lane;
Sys2Proof/Laws/Lanes.lean has their laws, and a test on fixed lanes uses `decide +kernel`.
-/

namespace Sys2Proof.Machine

/-- `rotl64(v, n)` for 0 ≤ n ≤ 63; n = 0 is the identity and never shifts by 64 (rule R90). -/
def rotl64 (v : Lane) (n : Nat) : Lane := if n = 0 then v else (v <<< n) ||| (v >>> (64 - n))

/-- The printed table of rule R96: row `k` holds `RC[k]` and `RC[k + 12]` (notes/assumptions/14.md). -/
def roundConstantRows : Vector (Lane × Lane) 12 := #v[
  (0x0000000000000001, 0x000000008000808B),
  (0x0000000000008082, 0x800000000000008B),
  (0x800000000000808A, 0x8000000000008089),
  (0x8000000080008000, 0x8000000000008003),
  (0x000000000000808B, 0x8000000000008002),
  (0x0000000080000001, 0x8000000000000080),
  (0x8000000080008081, 0x000000000000800A),
  (0x8000000000008009, 0x800000008000000A),
  (0x000000000000008A, 0x8000000080008081),
  (0x0000000000000088, 0x8000000000008080),
  (0x0000000080008009, 0x0000000080000001),
  (0x000000008000000A, 0x8000000080008008)]

/-- `RC[0..23]` (rule R96): the left column of the printed table for rounds 0 to 11, the right column for
rounds 12 to 23. -/
def roundConstants : Vector Lane 24 := Vector.ofFn fun r =>
  if h : r.val < 12 then roundConstantRows[r.val].1 else (roundConstantRows[r.val - 12]'(by omega)).2

/-- `RHO[0..24]` (rule R98; notes/assumptions/14.md). -/
def rotationOffsets : Vector Nat 25 := #v[
  0, 1, 62, 28, 27,
  36, 44, 6, 55, 20,
  3, 10, 43, 25, 39,
  41, 45, 15, 21, 8,
  18, 2, 61, 56, 14]

/-- `C[x]`, the parity of column `x` (rule R91). -/
def columnParity (a : Lanes) (x : Fin 5) : Lane :=
  lane a x 0 ^^^ lane a x 1 ^^^ lane a x 2 ^^^ lane a x 3 ^^^ lane a x 4

/-- `D[x]` (rule R91). -/
def thetaMask (a : Lanes) (x : Fin 5) : Lane :=
  columnParity a (x + 4) ^^^ rotl64 (columnParity a (x + 1)) 1

/-- `Theta(A)` (rule R91). -/
@[irreducible] def theta (a : Lanes) : Lanes := ofLanes fun x y => lane a x y ^^^ thetaMask a x

/-- `Rho(A)` (rule R92). -/
@[irreducible] def rho (a : Lanes) : Lanes := Vector.ofFn fun i => rotl64 a[i] rotationOffsets[i]

/-- `Pi(A)`, read from the destination side: `A'[x,y] = A[(x + 3*y) mod 5, x]` (rule R93). -/
@[irreducible] def pi (a : Lanes) : Lanes := ofLanes fun x y => lane a (x + 3 * y) x

/-- `Chi(A)` (rule R94). -/
@[irreducible] def chi (a : Lanes) : Lanes :=
  ofLanes fun x y => lane a x y ^^^ (~~~(lane a (x + 1) y) &&& lane a (x + 2) y)

/-- `Iota(A, r)` (rule R95). -/
@[irreducible] def iota (a : Lanes) (r : Fin 24) : Lanes := a.set 0 (a[0] ^^^ roundConstants[r])

/-- `Round(A, r)` (rule R100). -/
def roundFunction (a : Lanes) (r : Fin 24) : Lanes := iota (chi (pi (rho (theta a)))) r

/-- What the first `n` turns of a loop `for r in 0..23` make of `x`. -/
def turns {β : Type} (f : β → Fin 24 → β) (x : β) : Nat → β
  | 0 => x
  | n + 1 => if h : n < 24 then f (turns f x n) ⟨n, h⟩ else turns f x n

/-- `KeccakF(A)`: the rounds 0 to 23 in increasing order (rule R101). -/
@[irreducible] def keccakF (a : Lanes) : Lanes := turns roundFunction a Config.rounds

/-- `SEQ.rnd` after `IOTA`: the next round, or 0 after round 23 (rule R95). -/
def nextRound (r : Fin 24) : Fin 24 := if h : r.val < 23 then ⟨r.val + 1, by omega⟩ else 0

/-- `SEQ.uop` after `IOTA`: `THETA` for the next round, or `BUFCLR` after round 23 (rule R95). -/
def afterIota (r : Fin 24) : Uop := if r.val < 23 then .theta else .bufclr

/-- The transition `THETA` (rule R91). -/
def State.thetaStep (s : State) : State := { s with lanes := theta s.lanes, uop := .rho }

/-- The transition `RHO` (rule R92). -/
def State.rhoStep (s : State) : State := { s with lanes := rho s.lanes, uop := .pi }

/-- The transition `PI` (rule R93). -/
def State.piStep (s : State) : State := { s with lanes := pi s.lanes, uop := .chi }

/-- The transition `CHI` (rule R94). -/
def State.chiStep (s : State) : State := { s with lanes := chi s.lanes, uop := .iota }

/-- The transition `IOTA`, its round index in `SEQ.rnd` (rule R95). -/
def State.iotaStep (s : State) : State :=
  { s with lanes := iota s.lanes s.rnd, rnd := nextRound s.rnd, uop := afterIota s.rnd }

/-- The five micro-operations in succession with `SEQ.rnd` = r (rule R100; notes/assumptions/7.md). -/
def State.roundStep (s : State) (r : Fin 24) : State :=
  ({ s with rnd := r } : State).thetaStep.rhoStep.piStep.chiStep.iotaStep

/-- The 120 micro-operations of the 24 rounds in succession (rule R101; notes/assumptions/7.md). -/
def State.permuteStep (s : State) : State := turns State.roundStep s Config.rounds

/-- `THETA` (rule R91). -/
def execTheta (s : State) : Host.Outcome State Fault Refusal := .next s.thetaStep

/-- `RHO` (rule R92). -/
def execRho (s : State) : Host.Outcome State Fault Refusal := .next s.rhoStep

/-- `PI` (rule R93). -/
def execPi (s : State) : Host.Outcome State Fault Refusal := .next s.piStep

/-- `CHI` (rule R94). -/
def execChi (s : State) : Host.Outcome State Fault Refusal := .next s.chiStep

/-- `IOTA` (rule R95). -/
def execIota (s : State) : Host.Outcome State Fault Refusal := .next s.iotaStep

/-- `ROUND r` (rule R100). -/
def execRound (r : Fin 24) (s : State) : Host.Outcome State Fault Refusal := .next (s.roundStep r)

/-- `PERMUTE` (rule R101). -/
def execPermute (s : State) : Host.Outcome State Fault Refusal := .next s.permuteStep

end Sys2Proof.Machine
end

