-- ==== Sys2Proof/Machine/Sponge.lean ====
section
/-!
DEFINITION. The sponge unit (spec/41_sponge.md): `XorIn`, `BufClr`, `Append`, `PadBlk`, and the meanings of
`XORIN`, `BUFCLR`, `SETDV`, `ABSORB`, `FINAL` and `RDDIG`.
-/

namespace Sys2Proof.Machine

/-- `XorIn(A, block)`: the 17 words of the block into the rate lanes, the capacity lanes untouched
(rule R121). -/
@[irreducible] def xorIn (a : Lanes) (byteAt : Nat → Byte) : Lanes :=
  Vector.ofFn fun k => if k.val < Config.rateLanes then a[k] ^^^ blockWord byteAt k.val else a[k]

/-- `BufClr`: every byte of `BUF` is 0x00 and `CNT` is 0 (rule R122). -/
def State.bufClr (s : State) : State := { s with buf := [], cnt := 0 }

/-- `Append(b)`, for `CNT` at most 135 (rule R123). -/
def State.append (b : Byte) (s : State) : State :=
  { s with buf := s.buf.write s.cnt.toNat b, cnt := s.cnt + 1 }

/-- The padded block: 0x01 at offset `c`, 0x00 after it, 0x80 ORed into the last byte (rules R127 to
R129), for `c` at most 135. -/
def padBlock (m : Memory) (c : Nat) : Memory :=
  let m1 := m.write c Config.dsep
  let m2 := m1.zeroFill (c + 1) (Config.rate - 1 - c)
  m2.write (Config.rate - 1) (m2.read (Config.rate - 1) ||| Config.padEnd)

/-- `PadBlk`, for `CNT` at most 135; `CNT` stays (rule R127). -/
def State.padBlk (s : State) : State := { s with buf := padBlock s.buf s.cnt.toNat }

/-- The transition `XORIN` (rule R121). -/
def State.xorinStep (s : State) : State :=
  { s with lanes := xorIn s.lanes s.buf.read, rnd := 0, uop := .theta }

/-- The transition `BUFCLR` (rule R122). -/
def State.bufclrStep (s : State) : State :=
  { s.bufClr with uop := if s.fin then .setdv else .idle }

/-- The transition `SETDV` (rule R132). -/
def State.setdvStep (s : State) : State := { s with dv := true, fin := false, uop := .idle }

/-- Start the micro-program at `XORIN`, for a `FINAL` or not (rule R160). -/
def State.startBlock (s : State) (fin : Bool) : State := { s with fin := fin, uop := .xorin }

/-- The dispatch of an accepted `ABSORB b` (rules R123, R124, R160): append, latch `OK`, and start the
micro-program when the buffer is full. -/
def State.absorbStep (b : Byte) (s : State) : State :=
  let t := (s.append b).answer 0
  if t.cnt = 136 then t.startBlock false else t

/-- The dispatch of an accepted `FINAL` (rules R127, R130, R160). -/
def State.finalStep (s : State) : State := (s.padBlk.answer 0).startBlock true

/-- `XORIN` (rule R121). -/
def execXorin (s : State) : Host.Outcome State Fault Refusal := .next s.xorinStep

/-- `BUFCLR` (rule R122). -/
def execBufclr (s : State) : Host.Outcome State Fault Refusal := .next s.bufclrStep

/-- `SETDV` (rule R132). -/
def execSetdv (s : State) : Host.Outcome State Fault Refusal := .next s.setdvStep

/-- `ABSORB b` (rules R124, R160): rejected in the done phase; a `CNT` above 135, which no run reaches,
faults on the address it would write (notes/assumptions/6.md). -/
def execAbsorb (b : Byte) (s : State) : Host.Outcome State Fault Refusal :=
  if s.dv then .next (s.reject .seq)
  else if s.cnt.toNat < Config.rate then .next (s.absorbStep b)
  else .fault .bufferAddress

/-- `FINAL` (rules R130, R160): rejected in the done phase; a `CNT` above 135, which no run reaches,
faults on the address it would write (notes/assumptions/6.md). -/
def execFinal (s : State) : Host.Outcome State Fault Refusal :=
  if s.dv then .next (s.reject .seq)
  else if s.cnt.toNat < Config.rate then .next s.finalStep
  else .fault .bufferAddress

/-- `RDDIG i` (rules R134, R160): the range check comes before the phase check (rule R76). -/
def execRddig (i : Byte) (s : State) : Host.Outcome State Fault Refusal :=
  match digestIndex i with
  | none => .next (s.reject .range)
  | some j => if s.dv then .next (s.answer (digestByte s.lanes j)) else .next (s.reject .seq)

end Sys2Proof.Machine
end

