-- ==== Sys2Proof/Machine/Control.lean ====
section
/-!
DEFINITION. The control commands and the sequencer's `IDLE` (spec/42_control.md): the meanings of `INIT`,
`RDCR` and `IDLE`, and the dispatch of an accepted word.
-/

namespace Sys2Proof.Machine

/-- What `INIT` clears: everything but `SEQ` (rule R153). -/
def State.clearContext (s : State) : State :=
  { s with lanes := Vector.replicate 25 0, buf := [], cnt := 0, dv := false, err := 0 }

/-- `INIT` (rules R153, R160). -/
def execInit (s : State) : Host.Outcome State Fault Refusal := .next (s.clearContext.answer 0)

/-- `RDCR n` (rules R157, R160): a register that does not exist is `ERR_RANGE`. -/
def execRdcr (n : Byte) (s : State) : Host.Outcome State Fault Refusal :=
  match controlNumber n with
  | none => .next (s.reject .range)
  | some k => .next (s.answer (controlRegister s k))

/-- The dispatch step of rule R160 on an accepted word. -/
def dispatch (w : CommandWord) (s : State) : Host.Outcome State Fault Refusal :=
  match decodeCommand w with
  | .error _ => .next (s.reject .illegal)
  | .ok .init => execInit s
  | .ok (.absorb b) => execAbsorb b s
  | .ok .final => execFinal s
  | .ok (.rddig i) => execRddig i s
  | .ok (.rdcr n) => execRdcr n s

/-- `IDLE` (rules R70, R160, R163): a response that waits is delivered; otherwise the word the host
presents is accepted and dispatched; otherwise the core waits and nothing changes (rule R195). -/
def execIdle (s : State) : Host.Outcome State Fault Refusal :=
  match s.latch, s.host with
  | some _, _ => .next s.deliver
  | none, .present w :: rest => dispatch w { s with host := rest }
  | none, _ => .next s

end Sys2Proof.Machine
end

