-- ==== Sys2Proof/Machine/Dispatch.lean ====
section
/-!
DEFINITION. One arm per instruction: each is one direct call of that instruction's meaning.
-/

namespace Sys2Proof.Machine

def exec (i : Instr) (s : State) : Host.Outcome State Fault Refusal :=
  match i with
  | .init => Sys2Proof.Machine.execInit s
  | .absorb b => Sys2Proof.Machine.execAbsorb b s
  | .final => Sys2Proof.Machine.execFinal s
  | .rddig j => Sys2Proof.Machine.execRddig j s
  | .rdcr n => Sys2Proof.Machine.execRdcr n s
  | .idle => Sys2Proof.Machine.execIdle s
  | .theta => Sys2Proof.Machine.execTheta s
  | .rho => Sys2Proof.Machine.execRho s
  | .pi => Sys2Proof.Machine.execPi s
  | .chi => Sys2Proof.Machine.execChi s
  | .iota => Sys2Proof.Machine.execIota s
  | .xorin => Sys2Proof.Machine.execXorin s
  | .bufclr => Sys2Proof.Machine.execBufclr s
  | .setdv => Sys2Proof.Machine.execSetdv s
  | .round r => Sys2Proof.Machine.execRound r s
  | .permute => Sys2Proof.Machine.execPermute s

end Sys2Proof.Machine
end

