-- ==== Sys2Proof/Machine/Step.lean ====
section
/-!
DEFINITION. One step of the core: reset if the host asserts it, otherwise one sequencer step
(spec/42_control.md rules R160, R161; spec/70_reset_and_hazards.md rule R212).
-/

namespace Sys2Proof.Machine

/-- One step. Reset overrides everything (rule R212); otherwise the micro-operation that `SEQ.uop` names
runs, which at `IDLE` accepts and dispatches a presented word (rules R151, R160). A pause of the host
lasts one step. -/
def step (s : State) : Host.Outcome State Fault Refusal :=
  if s.resetAsserted then .next s.takeReset else endMove s (exec s.uop.instr s)

/-- The state with an instruction of the opcode table placed where the next step takes it from: a
command word is presented at an idle core, a sequencer code is put into `SEQ.uop`
(notes/assumptions/13.md). -/
def State.withFetchWord (s : State) (nbits w : Nat) : State :=
  match tableCode nbits w with
  | some c => s.placeCode c
  | none => s

end Sys2Proof.Machine
end

