-- ==== Sys2Proof/Machine/Command.lean ====
section
/-!
DEFINITION. The command level of the spec (spec/00_scope.md rule R15, spec/42_control.md rule R152): each
accepted command as one atomic transition with one response. The machine's step is the micro-step
level; rule R164 says that the two agree.
-/

namespace Sys2Proof.Machine

/-- A command that passes all of rule R76's checks, with its operand in range. -/
inductive Accepted where
  | init
  | absorb (b : Byte)
  | final
  | rddig (i : Fin 32)
  | rdcr (n : Fin 2)
deriving DecidableEq, Repr

/-- `decode(cmd, DV)`: the eight lines of rule R76, in order. -/
def decodeInPhase (w : CommandWord) (dv : Bool) : Except Cause Accepted :=
  if ¬(opField w = 1 ∨ opField w = 2 ∨ opField w = 3 ∨ opField w = 4 ∨ opField w = 5) then .error .illegal
  else if rsvField w ≠ 0 then .error .illegal
  else if (opField w = 1 ∨ opField w = 3) ∧ immField w ≠ 0 then .error .illegal
  else if opField w = 4 then
    match digestIndex (immField w) with
    | none => .error .range
    | some i => if dv then .ok (.rddig i) else .error .seq
  else if opField w = 5 then
    match controlNumber (immField w) with
    | none => .error .range
    | some n => .ok (.rdcr n)
  else if opField w = 1 then .ok .init
  else if dv then .error .seq
  else if opField w = 2 then .ok (.absorb (immField w))
  else .ok .final

/-- `A <- XorIn(A, BUF); A <- KeccakF(A); BufClr` (rules R124, R130). -/
def State.absorbBlock (s : State) : State :=
  ({ s with lanes := keccakF (xorIn s.lanes s.buf.read) } : State).bufClr

/-- `Exec(S, cmd)`: the next state and the response (rule R152). -/
def commandExec (w : CommandWord) (s : State) : State × ResponseWord :=
  match decodeInPhase w s.dv with
  | .error c => (s.recordCause c, respond c.code 0)
  | .ok .init => (s.clearContext, respond 0 0)
  | .ok (.absorb b) =>
    (if (s.append b).cnt = 136 then (s.append b).absorbBlock else s.append b, respond 0 0)
  | .ok .final => ({ s.padBlk.absorbBlock with dv := true }, respond 0 0)
  | .ok (.rddig i) => (s, respond 0 (digestByte s.lanes i))
  | .ok (.rdcr n) => (s, respond 0 (controlRegister s n))

/-- A run of the core at the command level: the state after a sequence of words (rule R152). -/
def commandRun (ws : List CommandWord) (s : State) : State :=
  ws.foldl (fun t w => (commandExec w t).1) s

/-- The number of sequencer steps a word takes after dispatch (rules R161, R218). -/
def sequencerSteps (w : CommandWord) (s : State) : Nat :=
  match decodeInPhase w s.dv with
  | .ok (.absorb _) => if s.cnt = 135 then 122 else 0
  | .ok .final => 123
  | _ => 0

end Sys2Proof.Machine
end

