-- ==== Sys2Proof/Machine/Reference.lean ====
section
/-!
DEFINITION. What the spec gives beside the machine: the derivations of the two tables, the fused rho and
pi, the other formulation of the padding, and the hash function as a function of the message
(spec/40_permutation.md rules R97, R99, R104; spec/41_sponge.md rules R127, R135).
-/

namespace Sys2Proof.Machine

/-- One step of the 8-bit shift register of rule R97 (in 9 bits before the reduction). -/
def lfsrStep (r : Nat) : Nat := if 2 * r < 256 then 2 * r else (2 * r) ^^^ 0x171

/-- The register after `n` steps from 0x01 (rule R97). -/
def lfsr : Nat → Nat
  | 0 => 1
  | n + 1 => lfsrStep (lfsr n)

/-- `rc(t)` (rule R97). -/
def rcBit (t : Nat) : Bool := (lfsr (t % 255)).testBit 0

/-- `RC[r]` by its derivation: bit `2^j - 1` is `rc(j + 7*r)` for j in 0..6 (rule R97). -/
def derivedRoundConstant (r : Nat) : Lane :=
  (List.range 7).foldl
    (fun w j => if rcBit (j + 7 * r) then w ||| (1#64 <<< (2 ^ j - 1)) else w) 0

/-- The position (x, y) after `t` moves of the pi mapping from (1, 0) (rule R99). -/
def piWalk : Nat → Fin 5 × Fin 5
  | 0 => (1, 0)
  | t + 1 => ((piWalk t).2, 2 * (piWalk t).1 + 3 * (piWalk t).2)

/-- `PILN[0..23]` (rule R104). -/
def pilnTable : Vector (Fin 25) 24 := #v[
  10, 7, 11, 17, 18, 3, 5, 16, 8, 21, 24, 4, 15, 23, 19, 13, 12, 2, 20, 14, 22, 9, 6, 1]

/-- `ROTC[0..23]` (rule R104). -/
def rotcTable : Vector Nat 24 := #v[
  1, 3, 6, 10, 15, 21, 28, 36, 45, 55, 2, 14, 27, 41, 56, 8, 25, 43, 62, 18, 39, 61, 20, 44]

/-- One turn of the fused loop: the lane being moved goes, rotated, to the next place of the cycle, and
the lane that was there is moved next (rule R104). -/
def fusedTurn (p : Lanes × Lane) (t : Fin 24) : Lanes × Lane :=
  (p.1.set pilnTable[t] (rotl64 p.2 rotcTable[t]), p.1[pilnTable[t]])

/-- `RhoPi(A)`, the fused form in place (rule R104). -/
def rhoPi (a : Lanes) : Lanes := (turns fusedTurn (a, a[1]) 24).1

/-- The padding in its other formulation: zero from `c` on, then OR in both special bytes (rule R127). -/
def padBlockByOr (m : Memory) (c : Nat) : Memory :=
  let m1 := m.zeroFill c (Config.rate - c)
  let m2 := m1.write c (m1.read c ||| Config.dsep)
  m2.write (Config.rate - 1) (m2.read (Config.rate - 1) ||| Config.padEnd)

/-- `pad`, for `c` = n mod 136 (rule R135). -/
def padding (c : Nat) : List Byte :=
  if c = 135 then [0x81] else 0x01 :: List.replicate (134 - c) 0 ++ [0x80]

/-- `P = M ++ pad` (rule R135). -/
def paddedMessage (m : List Byte) : List Byte := m ++ padding (m.length % 136)

/-- Byte `i` of `P[136*j .. 136*j+135]` (rule R135). -/
def messageByte (p : List Byte) (j i : Nat) : Byte := p.getD (136 * j + i) 0

/-- The lanes after the first `q` blocks of `p`, from all-zero lanes (rule R135). -/
def absorbedLanes (p : List Byte) (q : Nat) : Lanes :=
  (List.range q).foldl (fun a j => keccakF (xorIn a (messageByte p j))) (Vector.replicate 25 0)

/-- The lanes that the hash of `m` leaves (rule R135). -/
def hashLanes (m : List Byte) : Lanes := absorbedLanes (paddedMessage m) (m.length / 136 + 1)

/-- `ABSORB M[0]; ...; ABSORB M[n-1]` (rule R80). -/
def updateWords (m : List Byte) : List CommandWord := m.map (commandWord 2)

/-- The message bytes of a sequence of words: the operands of its `ABSORB`s, in order (rules R75, R124). -/
def absorbedBytes (ws : List CommandWord) : List Byte :=
  ws.filterMap fun w =>
    match decodeCommand w with
    | .ok (.absorb b) => some b
    | _ => none

/-- `INIT; UPDATE M; FINAL` (rules R80, R135). -/
def hashWords (m : List Byte) : List CommandWord :=
  commandWord 1 0 :: (updateWords m ++ [commandWord 3 0])

end Sys2Proof.Machine
end

