-- ==== Sys2Proof/Safety.lean ====
section
/-!
DEFINITION. What the claims are stated in: the invariant of the machine, the rules of an idle state, the
count of sequencer steps left, what the host can see, the legal response words.
-/

namespace Sys2Proof.Machine

/-- `k` steps of the machine, stopping at the first fault or refusal: the run of `Sys2Proof.core` on its
own types (`steps_eq_run` in Sys2Proof/Laws/Step.lean). -/
def steps : Nat → State → Host.Outcome State Fault Refusal
  | 0, s => .next s
  | k + 1, s =>
    match step s with
    | .next t => steps k t
    | .fault r => .fault r
    | .refused r => .refused r

/-- What rule R36 says of a state whose sequencer is idle. -/
def State.IdleRules (s : State) : Prop :=
  s.cnt.toNat ≤ 135 ∧ (∀ i, s.cnt.toNat ≤ i → s.buf.read i = 0) ∧ s.rnd = 0 ∧ s.fin = false ∧
    (s.dv = true → s.cnt = 0 ∧ s.buf = [])

/-- What holds while a command runs the micro-program (rules R26, R160, R161): the phase is still
absorbing, the response is latched, and until `BUFCLR` the count is 136 in an `ABSORB` and at most
135 in a `FINAL`. -/
def State.BusyRules (s : State) : Prop :=
  s.dv = false ∧ s.latch = some (respond 0 0) ∧
    (s.uop = .setdv → s.fin = true ∧ s.rnd = 0 ∧ s.cnt = 0 ∧ s.buf = []) ∧
    (s.uop = .xorin ∨ s.uop = .bufclr → s.rnd = 0) ∧
    (s.uop ≠ .setdv → if s.fin = true then s.cnt.toNat ≤ 135 else s.cnt.toNat = 136)

/-- The invariant of the machine: the buffer is in its canonical form, and the idle or the busy rules
hold. It rules out the states that no run from reset reaches, such as `CNT` above 136. -/
def State.Inv (s : State) : Prop :=
  s.buf.wf = true ∧ (s.uop = .idle → s.IdleRules) ∧ (s.uop ≠ .idle → s.BusyRules)

/-- The sequencer steps left until the sequencer is idle, when no reset comes (rules R161, R162). -/
def State.stepsLeft (s : State) : Nat :=
  match s.uop with
  | .idle => 0
  | .xorin => 122 + s.fin.toNat
  | .theta => 5 * (23 - s.rnd.val) + 6 + s.fin.toNat
  | .rho => 5 * (23 - s.rnd.val) + 5 + s.fin.toNat
  | .pi => 5 * (23 - s.rnd.val) + 4 + s.fin.toNat
  | .chi => 5 * (23 - s.rnd.val) + 3 + s.fin.toNat
  | .iota => 5 * (23 - s.rnd.val) + 2 + s.fin.toNat
  | .bufclr => 1 + s.fin.toNat
  | .setdv => 1

/-- The core is ready for the word `w`, which the host presents before its other moves (rule R70). -/
def State.ReadyFor (s : State) (w : CommandWord) (rest : List HostMove) : Prop :=
  s.uop = .idle ∧ s.latch = none ∧ s.host = .present w :: rest

/-- The host's moves after `n` steps of a busy core: a pause is over after one step, a word is held from
the step that presents it on (rule R70; notes/assumptions/2.md). For moves without a reset. -/
def dropPauses : Nat → List HostMove → List HostMove
  | n + 1, .pause :: rest => dropPauses n rest
  | _, moves => moves

/-- Two states that look the same to the host (rules R24, R58): the same `DV`, `ERR` and `CNT`, and the
same 32 digest bytes when `DV` = 1. -/
def SameView (s t : State) : Prop :=
  s.dv = t.dv ∧ s.err = t.err ∧ s.cnt = t.cnt ∧
    (s.dv = true → ∀ i : Fin 32, digestByte s.lanes i = digestByte t.lanes i)

/-- The response words that ever appear (rule R74): 0x000 to 0x0FF, 0x100, 0x200, 0x300. -/
def LegalResponse (r : ResponseWord) : Prop :=
  r.toNat ≤ 0x0FF ∨ r = 0x100 ∨ r = 0x200 ∨ r = 0x300

/-- Every response latched or delivered is one that rule R74 allows. -/
def State.ResponsesLegal (s : State) : Prop :=
  ∀ r, s.latch = some r ∨ r ∈ s.rsp → LegalResponse r

/-- A word that is no command whatever the phase (rules R76, R77), by its value. -/
def illegalWord (w : CommandWord) : Prop :=
  ¬(w = 0x1000 ∨ (0x2000 ≤ w.toNat ∧ w.toNat ≤ 0x20FF) ∨ w = 0x3000 ∨
    (0x4000 ≤ w.toNat ∧ w.toNat ≤ 0x40FF) ∨ (0x5000 ≤ w.toNat ∧ w.toNat ≤ 0x50FF))

/-- A word with its operand out of range (rule R77), by its value. -/
def outOfRangeWord (w : CommandWord) : Prop :=
  (0x4020 ≤ w.toNat ∧ w.toNat ≤ 0x40FF) ∨ (0x5002 ≤ w.toNat ∧ w.toNat ≤ 0x50FF)

/-- A legal word that comes in the wrong phase (rules R155, R181), by its value. -/
def outOfPhaseWord (w : CommandWord) (dv : Bool) : Prop :=
  (dv = true ∧ ((0x2000 ≤ w.toNat ∧ w.toNat ≤ 0x20FF) ∨ w = 0x3000)) ∨
    (dv = false ∧ 0x4000 ≤ w.toNat ∧ w.toNat ≤ 0x401F)

end Sys2Proof.Machine
end

