-- ==== Sys2Proof/Certificates/Slice0/Obligations.lean ====
section
/-!
DEFINITION. The statements for the provers. A frame is written `t = { s with f := t.f, ... }`: every field of
the state but the ones listed is unchanged, the buffer (all of memory) and the lanes among them. The fields
`host`, `latch` and `rsp`, and the steps that take a host move or deliver a response, are the model's form
of the ports (notes/assumptions/2.md, 3.md, 4.md). That a command's meaning is also defined in a state whose
sequencer is not idle, where no step runs it, is the model's choice (notes/assumptions/11.md).
-/

open Sys2Proof Sys2Proof.Machine

/-! ## Encoding and decoding -/

/-- Words and codes written out from rules R73 and R78, one per row that has a code, and words that rule
R76 refuses. -/
def Obligations.SpecWordsDecode : Prop :=
  decodeTableWord 16 0x1000 = some .init ∧ decodeTableWord 16 0x2061 = some (.absorb 0x61) ∧
  decodeTableWord 16 0x3000 = some .final ∧ decodeTableWord 16 0x401F = some (.rddig 31) ∧
  decodeTableWord 16 0x5001 = some (.rdcr 1) ∧ decodeTableWord 16 0x3001 = none ∧
  decodeTableWord 16 0x2161 = none ∧ decodeTableWord 16 0x6000 = none ∧ decodeTableWord 16 0x0000 = none ∧
  decodeTableWord 8 0x0 = some .idle ∧ decodeTableWord 8 0x1 = some .theta ∧
  decodeTableWord 8 0x2 = some .rho ∧ decodeTableWord 8 0x3 = some .pi ∧
  decodeTableWord 8 0x4 = some .chi ∧ decodeTableWord 8 0x5 = some .iota ∧
  decodeTableWord 8 0x6 = some .xorin ∧ decodeTableWord 8 0x7 = some .bufclr ∧
  decodeTableWord 8 0x8 = some .setdv ∧ decodeTableWord 8 0x9 = none

/-- Decoding the code of an instruction gives it back, for every instruction that has a code and every
value of its operand (rules R72, R73, R75, R78). -/
def Obligations.DecodeOfEncodeIsTheInstruction : Prop :=
  ∀ (i : Instr) (c : Code), encode i = some c → decodeCode c = some i

/-- A code that decodes is the code of what it decodes to: each word and each sequencer code has one
meaning. -/
def Obligations.EncodeOfDecodeIsTheCode : Prop :=
  ∀ (i : Instr) (c : Code), decodeCode c = some i → encode i = some c

/-- Which words name which command, by their value, and that every other word is refused (rules R73,
R77). -/
def Obligations.CommandWordsByValue : Prop :=
  ∀ w : CommandWord,
    (decodeCommand w = .ok .init ↔ w = 0x1000) ∧
    (∀ b, decodeCommand w = .ok (.absorb b) ↔ w.toNat = 0x2000 + b.toNat) ∧
    (decodeCommand w = .ok .final ↔ w = 0x3000) ∧
    (∀ i, decodeCommand w = .ok (.rddig i) ↔ w.toNat = 0x4000 + i.toNat) ∧
    (∀ n, decodeCommand w = .ok (.rdcr n) ↔ w.toNat = 0x5000 + n.toNat) ∧
    ((∃ e, decodeCommand w = .error e) ↔ illegalWord w)

/-! ## The step -/

/-- A step of a ready core with a word presented that decodes is the decoded instruction, with the word
taken off the port (rules R70, R151, R160). -/
def Obligations.StepRunsThePresentedCommand : Prop :=
  ∀ (s : State) (w : CommandWord) (rest : List HostMove) (i : Instr), s.ReadyFor w rest →
    decodeTableWord 16 w.toNat = some i → step s = exec i { s with host := rest }

/-- A step without a reset runs the instruction whose code is in `SEQ.uop` (rules R31, R161). That a pause of
the host lasts one step and is over after it is the model's choice (notes/assumptions/2.md). -/
def Obligations.StepRunsTheSequencerCode : Prop :=
  ∀ s : State, s.resetAsserted = false →
    ∃ i, decodeTableWord 8 s.uop.code.toNat = some i ∧
      (s.pausing = false → step s = exec i s) ∧
      (s.pausing = true → ∃ t, exec i s = .next t ∧ step s = .next { t with host := t.host.tail })

/-- An instruction of the opcode table placed in a state is what the very next step runs: the model's own
interface (notes/assumptions/13.md). -/
def Obligations.PlacedCodeIsWhatTheStepRuns : Prop :=
  (∀ (s : State) (w : Nat) (i : Instr), decodeTableWord 16 w = some i →
    step (s.withFetchWord 16 w) =
      exec i { s with uop := .idle, latch := none, rsp := s.rsp ++ s.latch.toList }) ∧
  (∀ (s : State) (w : Nat) (i : Instr), decodeTableWord 8 w = some i → s.host = [] →
    (s.withFetchWord 8 w).uop.code.toNat = w ∧
      step (s.withFetchWord 8 w) = exec i (s.withFetchWord 8 w))

/-- While a command runs, a word that the host presents is held and not accepted (rules R70, R151). -/
def Obligations.BusyCoreAcceptsNothing : Prop :=
  ∀ (s : State) (w : CommandWord) (rest : List HostMove),
    s.host = .present w :: rest → (s.uop ≠ .idle ∨ s.latch ≠ none) →
    ∃ t, step s = .next t ∧ t.host = s.host

/-! ## Reset -/

/-- Rule R33: the values after reset, and the reset state is what `INIT` produces. -/
def Obligations.ResetStateValues : Prop :=
  (∀ (i : Nat) (h : i < 25), State.reset.lanes[i] = 0x0000000000000000) ∧
  (∀ i, i ≤ 135 → State.reset.buf.read i = 0x00) ∧ State.reset.cnt = 0 ∧ State.reset.dv = false ∧
  State.reset.err = 0 ∧ State.reset.uop.code = 0 ∧ State.reset.rnd.val = 0 ∧ State.reset.fin = false ∧
  (∀ s : State, s.uop = .idle → s.rnd = 0 → s.fin = false →
    exec .init s = .next { State.reset with latch := some 0x000, host := s.host, rsp := s.rsp })

/-- Reset overrides everything, in every state: `cmd_ready` is 0, the next state is the reset state, and no
response is delivered (rules R210, R212). That a reset move lasts one step and that the host's later moves
stay is the model's choice (notes/assumptions/4.md). -/
def Obligations.ResetOverridesEverything : Prop :=
  ∀ (s : State) (rest : List HostMove), s.host = .reset :: rest →
    s.cmdReady = false ∧ step s = .next { State.reset with host := rest, rsp := s.rsp }

/-! ## The permutation engine -/

/-- Rule R90: the identity at 0, the shift formula on naturals for 1 ≤ n ≤ 63, bit by bit, and the amounts
that `RHO` passes are in range. -/
def Obligations.RotateLeftFormula : Prop :=
  (∀ i : Fin 25, rotationOffsets[i] ≤ 63) ∧
  ∀ (v : Lane) (n : Nat), n ≤ 63 →
    (n = 0 → rotl64 v n = v) ∧
    (1 ≤ n → (rotl64 v n).toNat =
      ((v.toNat <<< n) ||| (v.toNat >>> (64 - n))) &&& 0xFFFFFFFFFFFFFFFF) ∧
    (∀ z, z < 64 → (rotl64 v n).getLsbD z = v.getLsbD ((z + 64 - n) % 64) ∧
      (rotl64 v n).getLsbD ((z + n) % 64) = v.getLsbD z)

/-- Rule R91: every lane gets its column's mask, from the lanes before the step; nothing else changes but
`SEQ.uop`. -/
def Obligations.ThetaResult : Prop :=
  ∀ s : State, ∃ t, exec .theta s = .next t ∧ t = { s with lanes := t.lanes, uop := .rho } ∧
    ∃ c d : Fin 5 → Lane,
      (∀ x, c x = lane s.lanes x 0 ^^^ lane s.lanes x 1 ^^^ lane s.lanes x 2 ^^^ lane s.lanes x 3 ^^^
        lane s.lanes x 4) ∧
      (∀ x, d x = c (x - 1) ^^^ rotl64 (c (x + 1)) 1) ∧
      ∀ x y, lane t.lanes x y = lane s.lanes x y ^^^ d x

/-- Rule R92: each lane rotated by its offset; nothing else changes but `SEQ.uop`. -/
def Obligations.RhoResult : Prop :=
  ∀ s : State, ∃ t, exec .rho s = .next t ∧ t = { s with lanes := t.lanes, uop := .pi } ∧
    (∀ (i : Nat) (h : i < 25), t.lanes[i] = rotl64 s.lanes[i] rotationOffsets[i]) ∧
    t.lanes[0] = s.lanes[0]

/-- Rule R93: the lane at column x, row y goes to column y, row 2x+3y mod 5, a bijection; nothing else changes
but `SEQ.uop`. The destination-side reading, the second clause, is one that the spec derives from the
first ("derived: substitute and solve mod 5"). -/
def Obligations.PiResult : Prop :=
  ∀ s : State, ∃ t, exec .pi s = .next t ∧ t = { s with lanes := t.lanes, uop := .chi } ∧
    (∀ x y : Fin 5, lane t.lanes y (2 * x + 3 * y) = lane s.lanes x y) ∧
    (∀ x y : Fin 5, lane t.lanes x y = lane s.lanes (x + 3 * y) x) ∧
    (∀ x y x' y' : Fin 5, y = y' → 2 * x + 3 * y = 2 * x' + 3 * y' → x = x')

/-- Rule R94: each row from its old values; nothing else changes but `SEQ.uop`. -/
def Obligations.ChiResult : Prop :=
  ∀ s : State, ∃ t, exec .chi s = .next t ∧ t = { s with lanes := t.lanes, uop := .iota } ∧
    ∀ x y, lane t.lanes x y =
      lane s.lanes x y ^^^ (~~~(lane s.lanes (x + 1) y) &&& lane s.lanes (x + 2) y)

/-- Rule R95: the round constant into lane 0 only, then the next round or the end of the loop. -/
def Obligations.IotaResult : Prop :=
  ∀ s : State, ∃ t, exec .iota s = .next t ∧
    t = { s with lanes := t.lanes, rnd := t.rnd, uop := t.uop } ∧
    t.lanes[0] = s.lanes[0] ^^^ roundConstants[s.rnd] ∧
    (∀ (i : Nat) (h : i < 25), i ≠ 0 → t.lanes[i] = s.lanes[i]) ∧
    (s.rnd.val < 23 → t.rnd.val = s.rnd.val + 1 ∧ t.uop = .theta) ∧
    (s.rnd.val = 23 → t.rnd.val = 0 ∧ t.uop = .bufclr)

/-- Rule R106: theta, rho, pi and iota are affine over XOR, and bit z of a lane after chi depends only on
bits z of three lanes of its row (which the spec derives from rules R91 to R95). -/
def Obligations.StepMappingsAffineOrBitwise : Prop :=
  (∀ a b e : Lanes, (∀ (i : Nat) (h : i < 25), e[i] = a[i] ^^^ b[i]) →
    (∀ (i : Nat) (h : i < 25), (theta e)[i] = (theta a)[i] ^^^ (theta b)[i]) ∧
    (∀ (i : Nat) (h : i < 25), (rho e)[i] = (rho a)[i] ^^^ (rho b)[i]) ∧
    (∀ (i : Nat) (h : i < 25), (pi e)[i] = (pi a)[i] ^^^ (pi b)[i]) ∧
    (∀ (r : Fin 24) (i : Nat) (h : i < 25), (iota e r)[i] = (iota a r)[i] ^^^ b[i])) ∧
  (∀ (a b : Lanes) (x y : Fin 5) (z : Nat), (lane a x y).getLsbD z = (lane b x y).getLsbD z →
    (lane a (x + 1) y).getLsbD z = (lane b (x + 1) y).getLsbD z →
    (lane a (x + 2) y).getLsbD z = (lane b (x + 2) y).getLsbD z →
      (lane (chi a) x y).getLsbD z = (lane (chi b) x y).getLsbD z)

/-- Rules R96 to R99: the two tables are what their derivations give: `RC` by the shift register, bit by bit,
and `RHO` by the walk of the pi mapping, which visits every position but (0, 0). -/
def Obligations.TablesEqualTheirDerivations : Prop :=
  (∀ r : Fin 24, roundConstants[r] = derivedRoundConstant r.val) ∧
  (∀ (r : Fin 24) (z : Fin 64), (roundConstants[r]).getLsbD z.val = true ↔
    ∃ j : Fin 7, z.val = 2 ^ j.val - 1 ∧ rcBit (j.val + 7 * r.val) = true) ∧
  rotationOffsets[0] = 0 ∧
  (∀ t : Fin 24, rotationOffsets[(piWalk t.val).1.val + 5 * (piWalk t.val).2.val] =
    (t.val + 1) * (t.val + 2) / 2 % 64) ∧
  (∀ i : Fin 25, i ≠ 0 → ∃ t : Fin 24, (piWalk t.val).1.val + 5 * (piWalk t.val).2.val = i.val)

/-- Rule R104: the fused form gives `Pi(Rho(A))` for every `A`; `PILN[t]` is the index reached after t + 1
moves of the pi mapping from (1, 0), and `ROTC[t]` the offset of the lane being moved. -/
def Obligations.FusedRhoPiIsPiAfterRho : Prop :=
  (∀ a : Lanes, rhoPi a = pi (rho a)) ∧
  (∀ t : Fin 24, (pilnTable[t]).val = (piWalk (t.val + 1)).1.val + 5 * (piWalk (t.val + 1)).2.val) ∧
  (∀ t : Fin 24, rotcTable[t] = (t.val + 1) * (t.val + 2) / 2 % 64 ∧
    rotcTable[t] = rotationOffsets[(piWalk t.val).1.val + 5 * (piWalk t.val).2.val])

/-- Rule R100: `ROUND r` is theta, rho, pi, chi, iota in that order; `SEQ` is left as `IOTA` leaves it
(notes/assumptions/7.md). -/
def Obligations.RoundIsTheFiveSteps : Prop :=
  ∀ (s : State) (r : Fin 24), ∃ t, exec (.round r) s = .next t ∧
    t = { s with lanes := iota (chi (pi (rho (theta s.lanes)))) r, rnd := t.rnd, uop := t.uop } ∧
    (r.val < 23 → t.rnd.val = r.val + 1 ∧ t.uop = .theta) ∧
    (r.val = 23 → t.rnd.val = 0 ∧ t.uop = .bufclr)

/-- Rule R101: `PERMUTE` is the rounds 0 to 23 in increasing order on the lanes, and that is `KeccakF`;
`SEQ` is left as the last `IOTA` leaves it (notes/assumptions/7.md). -/
def Obligations.PermuteIsTheTwentyFourRounds : Prop :=
  ∀ s : State, ∃ t, exec .permute s = .next t ∧
    t = { s with lanes := t.lanes, rnd := 0, uop := .bufclr } ∧ t.lanes = keccakF s.lanes ∧
    ∃ a : Nat → Lanes, a 0 = s.lanes ∧ t.lanes = a 24 ∧
      ∀ r : Fin 24, a (r.val + 1) = iota (chi (pi (rho (theta (a r.val))))) r

/-- The sequencer performs `PERMUTE` as 120 micro-operations: from `THETA` with `SEQ.rnd` = 0, and with a
host that asserts no reset, 120 steps reach the state of `PERMUTE` (rules R101, R161), but that the host's
pauses are over meanwhile (the model's choice, notes/assumptions/2.md). -/
def Obligations.SequencerPermutesIn120Steps : Prop :=
  ∀ s : State, s.uop = .theta → s.rnd = 0 → HostMove.reset ∉ s.host →
    ∃ t, steps 120 s = .next { t with host := dropPauses 120 s.host } ∧ exec .permute s = .next t ∧
      t.lanes = keccakF s.lanes

/-! ## Byte order -/

/-- Rule R52: eight buffer bytes as one word, the byte at the lowest address in bits 7:0, as a sum and byte by
byte. The last clause, that an XOR of the word into a lane is the XOR of each byte into its byte of the lane,
is one that the spec derives ("derived: from rule R51"). -/
def Obligations.BufferWordIsLittleEndian : Prop :=
  ∀ (m : Memory) (k : Nat), k ≤ 16 →
    (blockWord m.read k).toNat =
      (List.range 8).foldl (fun n j => n + ((m.read (8 * k + j)).toNat <<< (8 * j))) 0 ∧
    ∀ j, j < 8 → (blockWord m.read k).extractLsb' (8 * j) 8 = m.read (8 * k + j) ∧
      ∀ a : Lane, (a ^^^ blockWord m.read k).extractLsb' (8 * j) 8 =
        a.extractLsb' (8 * j) 8 ^^^ m.read (8 * k + j)

/-- Rule R51: image byte j is bits 8*(j mod 8)+7 down to 8*(j mod 8) of lane j div 8. -/
def Obligations.ImageByteIsLittleEndian : Prop :=
  ∀ (a : Lanes) (j : Fin 200),
    (imageByte a j).toNat = ((a[j.val / 8]).toNat >>> (8 * (j.val % 8))) % 256

/-! ## The sponge unit -/

/-- Rule R121: image byte i becomes image byte i XOR `BUF[i]` for i in 0..135, the capacity bytes stay,
`SEQ.rnd` becomes 0, and nothing else changes. -/
def Obligations.XorinResult : Prop :=
  ∀ s : State, ∃ t, exec .xorin s = .next t ∧
    t = { s with lanes := t.lanes, rnd := 0, uop := .theta } ∧
    (∀ j : Fin 200, j.val ≤ 135 → imageByte t.lanes j = imageByte s.lanes j ^^^ s.buf.read j.val) ∧
    (∀ j : Fin 200, 136 ≤ j.val → imageByte t.lanes j = imageByte s.lanes j) ∧
    (∀ (k : Nat) (h : k < 25), k ≤ 16 → t.lanes[k] = s.lanes[k] ^^^ blockWord s.buf.read k) ∧
    (∀ (k : Nat) (h : k < 25), 17 ≤ k → t.lanes[k] = s.lanes[k])

/-- Rule R122: every buffer byte 0x00, `CNT` 0, then `SETDV` or `IDLE`; nothing else changes. -/
def Obligations.BufclrResult : Prop :=
  ∀ s : State, ∃ t, exec .bufclr s = .next t ∧
    t = { s with buf := t.buf, cnt := 0, uop := t.uop } ∧ (∀ i, t.buf.read i = 0x00) ∧
    (s.fin = true → t.uop = .setdv) ∧ (s.fin = false → t.uop = .idle)

/-- Rule R132: `DV` becomes 1, `SEQ.fin` 0, `SEQ.uop` `IDLE`; nothing else changes. -/
def Obligations.SetdvResult : Prop :=
  ∀ s : State, exec .setdv s = .next { s with dv := true, fin := false, uop := .idle }

/-- An accepted `ABSORB b` appends `b` at address `CNT`, and the 136th byte starts the micro-program
(rules R123, R124, R160). -/
def Obligations.AbsorbAppendsTheByte : Prop :=
  ∀ (s : State) (b : Byte), s.dv = false → s.cnt.toNat ≤ 135 → s.buf.wf = true →
    ∃ t, exec (.absorb b) s = .next t ∧
      t = { s with buf := t.buf, cnt := t.cnt, latch := some 0x000, uop := t.uop, fin := t.fin } ∧
      t.buf.read s.cnt.toNat = b ∧ (∀ i, i ≠ s.cnt.toNat → t.buf.read i = s.buf.read i) ∧
      t.cnt.toNat = s.cnt.toNat + 1 ∧
      (s.cnt.toNat < 135 → t.uop = .idle ∧ t.fin = s.fin) ∧
      (s.cnt.toNat = 135 → t.uop = .xorin ∧ t.fin = false)

/-- An accepted `FINAL` pads the block and starts the micro-program: 0x01 at offset c = `CNT`, zeros, 0x80
in the last byte, the two merged to 0x81 when c = 135 (rules R127, R128, R129, R160). -/
def Obligations.FinalPadsTheBlock : Prop :=
  ∀ s : State, s.dv = false → s.cnt.toNat ≤ 135 → s.buf.wf = true →
    ∃ t, exec .final s = .next t ∧
      t = { s with buf := t.buf, latch := some 0x000, uop := .xorin, fin := true } ∧
      (∀ i, i < s.cnt.toNat → t.buf.read i = s.buf.read i) ∧
      (s.cnt.toNat < 135 → t.buf.read s.cnt.toNat = 0x01 ∧ t.buf.read 135 = 0x80) ∧
      (s.cnt.toNat = 135 → t.buf.read 135 = 0x81) ∧
      (∀ i, s.cnt.toNat < i → i < 135 → t.buf.read i = 0x00)

/-- The two formulations of the padding give the same block (rule R127, spec/90_conflicts.md C2). -/
def Obligations.PaddingFormulationsAgree : Prop :=
  ∀ (m : Memory) (c : Nat), m.wf = true → c ≤ 135 → padBlock m c = padBlockByOr m c

/-- Every write of a byte at an address of the buffer keeps the canonical form, reads back, and leaves the
other bytes alone; equal contents are equal data; and every instruction keeps the canonical form. The form
is the model's representation of the 136 bytes (notes/assumptions/5.md). -/
def Obligations.PaddedAndAppendedBuffersStayCanonical : Prop :=
  (∀ (m : Memory) (i : Nat) (v : Byte), m.wf = true → i ≤ 135 →
    (m.write i v).wf = true ∧ (m.write i v).read i = v ∧ ∀ j, j ≠ i → (m.write i v).read j = m.read j) ∧
  (∀ m m' : Memory, m.wf = true → m'.wf = true → (∀ i, i ≤ 135 → m.read i = m'.read i) → m = m') ∧
  (∀ (s t : State) (i : Instr), s.buf.wf = true → exec i s = .next t → t.buf.wf = true)

/-- A `CNT` above 135 at dispatch, which no run reaches, has no address to write: `ABSORB` and `FINAL` fault
(notes/assumptions/6.md). -/
def Obligations.CountBeyondTheBufferFaults : Prop :=
  ∀ (s : State) (b : Byte), s.dv = false → 136 ≤ s.cnt.toNat →
    exec (.absorb b) s = .fault .bufferAddress ∧ exec .final s = .fault .bufferAddress

/-- Rules R133, R134: `RDDIG i` in range and in the done phase answers `OK` with byte i of the image and
changes nothing but the response and `SEQ.uop`. -/
def Obligations.RddigReadsTheDigestByte : Prop :=
  ∀ (s : State) (i : Byte) (h : i.toNat ≤ 31), s.dv = true →
    ∃ t, exec (.rddig i) s = .next t ∧ t = { s with latch := t.latch, uop := .idle } ∧
      ∃ d : Byte, t.latch = some (0#2 ++ d) ∧
        d.toNat = ((s.lanes[i.toNat / 8]).toNat >>> (8 * (i.toNat % 8))) % 256

/-- Rule R157: `RDCR 0` answers with `STATUS`, `RDCR 1` with `CNT`; nothing changes but the response and
`SEQ.uop`. -/
def Obligations.RdcrReadsTheRegister : Prop :=
  ∀ s : State,
    exec (.rdcr 0) s = .next { s with latch := some (0#2 ++ (0b00000#5 ++ s.err ++ BitVec.ofBool s.dv)), uop := .idle } ∧
    exec (.rdcr 1) s = .next { s with latch := some (0#2 ++ s.cnt), uop := .idle }

/-- Rule R153: what `INIT` writes, in every state. -/
def Obligations.InitClearsTheContext : Prop :=
  ∀ s : State, ∃ t, exec .init s = .next t ∧
    t = { s with lanes := t.lanes, buf := t.buf, cnt := 0, dv := false, err := 0, latch := some 0x000, uop := .idle } ∧
    (∀ (i : Nat) (h : i < 25), t.lanes[i] = 0x0000000000000000) ∧ (∀ i, t.buf.read i = 0x00)

/-- Rule R154: the step that accepts the word 0x1000, in every state that meets the invariant, leaves the
reset state in every architectural field (which the spec derives from rules R153 and R33). -/
def Obligations.InitEqualsReset : Prop :=
  ∀ (s : State) (rest : List HostMove), s.Inv → s.ReadyFor 0x1000 rest →
    step s = .next { State.reset with latch := some 0x000, host := rest, rsp := s.rsp }

/-! ## `IDLE`, rejection, responses -/

/-- `IDLE` delivers a response that waits before it accepts a word, and waits with all state kept when there is
none and no word is presented (rules R160, R163, R195). That the delivery is a step of its own, which empties
the latch and appends to the record of responses (the first clause), is the model's choice
(notes/assumptions/3.md). -/
def Obligations.IdleDeliversOrWaits : Prop :=
  (∀ (s : State) (r : ResponseWord), s.latch = some r →
    exec .idle s = .next { s with latch := none, rsp := s.rsp ++ [r] }) ∧
  (∀ s : State, s.latch = none → (∀ w rest, s.host ≠ .present w :: rest) → exec .idle s = .next s)

/-- `IDLE` with a word presented and no response waiting accepts it: it answers what the command's own
meaning answers, and an illegal word is rejected (rule R160). -/
def Obligations.IdleDispatchesTheWord : Prop :=
  ∀ (s : State) (w : CommandWord) (rest : List HostMove), s.latch = none → s.host = .present w :: rest →
    (∀ i, decodeTableWord 16 w.toNat = some i → exec .idle s = exec i { s with host := rest }) ∧
    (illegalWord w → exec .idle s = .next { s with
      host := rest, err := if s.err = 0 then 1 else s.err, latch := some 0x100, uop := .idle })

/-- A rejected word reports the first cause that applies, in the order `ERR_ILLEGAL`, `ERR_RANGE`,
`ERR_SEQ`, records it if it is the first, and changes nothing else (rules R76, R181, R183, R184,
R185). -/
def Obligations.RejectionByPriority : Prop :=
  ∀ (s : State) (w : CommandWord) (rest : List HostMove), s.ReadyFor w rest →
    (illegalWord w → step s = .next { s with
      host := rest, err := if s.err = 0 then 1 else s.err, latch := some 0x100 }) ∧
    (¬illegalWord w → outOfRangeWord w → step s = .next { s with
      host := rest, err := if s.err = 0 then 2 else s.err, latch := some 0x200 }) ∧
    (¬illegalWord w → ¬outOfRangeWord w → outOfPhaseWord w s.dv → step s = .next { s with
      host := rest, err := if s.err = 0 then 3 else s.err, latch := some 0x300 })

/-- A word that meets no rejection condition is accepted: it is answered `OK`, and `ERR` stays, but that
`INIT` clears it (rules R74, R76, R153). -/
def Obligations.AcceptedWordIsAnsweredOk : Prop :=
  ∀ (s : State) (w : CommandWord) (rest : List HostMove), s.ReadyFor w rest → s.cnt.toNat ≤ 135 →
    ¬illegalWord w → ¬outOfRangeWord w → ¬outOfPhaseWord w s.dv →
    ∃ t, step s = .next t ∧ t.host = rest ∧ t.rsp = s.rsp ∧
      t.err = (if w = 0x1000 then 0 else s.err) ∧ ∃ d : Byte, t.latch = some (0#2 ++ d) ∧
        (w.toNat < 0x4000 → d = 0)

/-- The meanings reject out of range and out of phase, with the response and the record of their cause and
no other effect (rules R155, R181, R184). -/
def Obligations.MeaningsRejectOutOfRangeAndPhase : Prop :=
  ∀ s : State,
    (s.dv = true → ∀ b, exec (.absorb b) s = .next { s with
      err := if s.err = 0 then 3 else s.err, latch := some 0x300, uop := .idle }) ∧
    (s.dv = true → exec .final s = .next { s with
      err := if s.err = 0 then 3 else s.err, latch := some 0x300, uop := .idle }) ∧
    (∀ i : Byte, 32 ≤ i.toNat → exec (.rddig i) s = .next { s with
      err := if s.err = 0 then 2 else s.err, latch := some 0x200, uop := .idle }) ∧
    (s.dv = false → ∀ i : Byte, i.toNat ≤ 31 → exec (.rddig i) s = .next { s with
      err := if s.err = 0 then 3 else s.err, latch := some 0x300, uop := .idle }) ∧
    (∀ n : Byte, 2 ≤ n.toNat → exec (.rdcr n) s = .next { s with
      err := if s.err = 0 then 2 else s.err, latch := some 0x200, uop := .idle })

/-- Exactly one response for each accepted word, latched when it is accepted, delivered before the next word is
accepted, in command order (rule R71). That the delivery is a step of its own (the second clause) and that a
pause of the host lasts one step and is over after it (the last clause) is the model's choice
(notes/assumptions/3.md, 2.md). -/
def Obligations.OneResponsePerAcceptedWord : Prop :=
  ∀ s t : State, s.resetAsserted = false → step s = .next t →
    (∀ w rest, s.ReadyFor w rest → t.rsp = s.rsp ∧ t.latch ≠ none ∧ t.host = rest) ∧
    (∀ r, s.uop = .idle → s.latch = some r → t.rsp = s.rsp ++ [r] ∧ t.latch = none ∧ t.uop = .idle) ∧
    (s.uop ≠ .idle → t.rsp = s.rsp ∧ t.latch = s.latch) ∧
    (s.uop = .idle → s.latch = none → (∀ w rest, s.host ≠ .present w :: rest) →
      t = { s with host := s.host.tail })

/-- Rule R74: only 0x000 to 0x0FF, 0x100, 0x200 and 0x300 ever appear. -/
def Obligations.ResponsesStayLegal : Prop :=
  ∀ s t : State, s.ResponsesLegal → step s = .next t → t.ResponsesLegal

/-- The invariant of the responses holds at reset, whatever the host will do. -/
def Obligations.ResponsesLegalAtReset : Prop :=
  ∀ moves : List HostMove, ({ State.reset with host := moves } : State).ResponsesLegal

/-! ## The whole machine -/

/-- The invariant holds at reset, whatever the host will do. -/
def Obligations.InvariantHoldsAtReset : Prop :=
  ∀ moves : List HostMove, ({ State.reset with host := moves } : State).Inv

/-- From every state that meets the invariant a step answers a next state that meets it: no fault, no
refusal, nothing undefined (rules R26, R36, R197). -/
def Obligations.StepKeepsTheInvariant : Prop :=
  ∀ s : State, s.Inv → ∃ t, step s = .next t ∧ t.Inv

/-- Rule R36: in every run from reset, whatever the host does, and for any number of steps, the machine
does not stop, and whenever the sequencer is idle the rules of an idle state hold (which the spec derives
from rule R33 and the commands). -/
def Obligations.IdleStatesMeetTheirRules : Prop :=
  ∀ (moves : List HostMove) (k : Nat),
    ∃ t, steps k { State.reset with host := moves } = .next t ∧
      (t.uop = .idle → t.cnt.toNat ≤ 135 ∧ (∀ i, t.cnt.toNat ≤ i → t.buf.read i = 0x00) ∧
        t.rnd.val = 0 ∧ t.fin = false ∧ (t.dv = true → t.cnt = 0 ∧ ∀ i, t.buf.read i = 0x00))

/-- Every step of a running command brings the sequencer one step nearer to `IDLE` (rules R161, R162). -/
def Obligations.EverySequencerStepCountsDown : Prop :=
  ∀ s : State, s.uop ≠ .idle → s.resetAsserted = false →
    ∃ t, step s = .next t ∧ t.stepsLeft + 1 = s.stepsLeft

/-- After dispatch a word takes 0, 122 or 123 sequencer steps: 122 for an accepted `ABSORB` that fills the
buffer, 123 for an accepted `FINAL`, none for any other (rules R161, R197, R218). -/
def Obligations.SequencerStepsPerCommand : Prop :=
  ∀ (s : State) (w : CommandWord) (rest : List HostMove), s.ReadyFor w rest → s.cnt.toNat ≤ 135 →
    ∃ t, step s = .next t ∧
      t.stepsLeft =
        if s.dv = false ∧ s.cnt.toNat = 135 ∧ 0x2000 ≤ w.toNat ∧ w.toNat ≤ 0x20FF then 122
        else if s.dv = false ∧ w = 0x3000 then 123
        else 0

/-- Rule R164: from an idle state, dispatch of a word and then sequencer steps until `IDLE`, and the
delivery of the response, reach exactly the state of `Exec` and deliver exactly its response (which the
spec derives from the micro-program of rule R161), whatever the host does meanwhile but assert reset: it
may pause, and a word it presents is held. That a pause lasts one step and that the delivery is a step is
the model's choice (notes/assumptions/2.md, 3.md). -/
def Obligations.MicroStepsReachTheCommandLevel : Prop :=
  ∀ (s : State) (w : CommandWord) (rest : List HostMove), s.ReadyFor w rest → HostMove.reset ∉ rest → s.Inv →
    steps (2 + sequencerSteps w s) s =
      .next { (commandExec w s).1 with
        host := dropPauses (1 + sequencerSteps w s) rest, rsp := s.rsp ++ [(commandExec w s).2] }

/-- Rule R29: `ERR`, once not 0, keeps its value until `INIT` or reset clears it. -/
def Obligations.ErrKeepsTheFirstCause : Prop :=
  ∀ s t : State, s.err ≠ 0 → step s = .next t →
    t.err = s.err ∨ (t.err = 0 ∧ (s.resetAsserted = true ∨ ∃ rest, s.ReadyFor 0x1000 rest))

/-- Rule R29: `ERR` is a record and blocks nothing: with another value in it every word has the same effect
and the same response, but for `ERR` itself and the data of `RDCR 0`. -/
def Obligations.ErrIsOnlyARecord : Prop :=
  ∀ (s t : State) (e : BitVec 2) (w : CommandWord) (rest : List HostMove), s.ReadyFor w rest →
    step s = .next t →
    ∃ t', step { s with err := e } = .next t' ∧ t' = { t with err := t'.err, latch := t'.latch } ∧
      (w ≠ 0x5000 → t'.latch = t.latch)

/-- Rule R28: `DV` goes from 1 back to 0 only by `INIT` and reset, and from 0 to 1 only by `SETDV`. -/
def Obligations.DvChangesOnlyByItsEvents : Prop :=
  ∀ s t : State, step s = .next t →
    (s.dv = true → t.dv = false → s.resetAsserted = true ∨ ∃ rest, s.ReadyFor 0x1000 rest) ∧
    (s.dv = false → t.dv = true → s.uop = .setdv)

/-- Rules R23, R120: the capacity lanes change only by the permutation's micro-operations, `INIT` and
reset. -/
def Obligations.CapacityChangesOnlyByPermutation : Prop :=
  ∀ s t : State, step s = .next t → s.resetAsserted = false → (∀ rest, ¬s.ReadyFor 0x1000 rest) →
    s.uop ≠ .theta → s.uop ≠ .rho → s.uop ≠ .pi → s.uop ≠ .chi →
    ∀ (k : Nat) (h : k < 25), 17 ≤ k → t.lanes[k] = s.lanes[k]

/-- Rules R4, R126, R131: the micro-program is started by an accepted `ABSORB` that delivers the 136th byte
and by an accepted `FINAL`, and by nothing else. -/
def Obligations.PermutationStartsOnlyFromTwoCommands : Prop :=
  ∀ s t : State, step s = .next t → t.uop = .xorin →
    s.dv = false ∧ ∃ w rest, s.ReadyFor w rest ∧
      (w = 0x3000 ∨ (0x2000 ≤ w.toNat ∧ w.toNat ≤ 0x20FF ∧ s.cnt.toNat = 135))

/-- Rule R58: two states that differ only in what no command reads (the lanes outside the digest, the
digest itself before it is valid, the buffer) answer every word alike (which the spec derives from rules R57
and R24). -/
def Obligations.HiddenStateDoesNotReachTheHost : Prop :=
  ∀ (s s' t t' : State) (w : CommandWord) (rest rest' : List HostMove),
    s.ReadyFor w rest → s'.ReadyFor w rest' → SameView s s' → step s = .next t → step s' = .next t' →
      t.latch = t'.latch ∧ t.err = t'.err ∧ t.dv = t'.dv ∧ t.cnt = t'.cnt

/-- A rejected word, `RDDIG` and `RDCR` leave the message and the digest alone (rules R56, R136, R184). -/
def Obligations.ReadsAndRejectionsAreHarmless : Prop :=
  ∀ (s : State) (w : CommandWord) (rest : List HostMove), s.ReadyFor w rest →
    (illegalWord w ∨ outOfRangeWord w ∨ outOfPhaseWord w s.dv ∨
      (0x4000 ≤ w.toNat ∧ w.toNat ≤ 0x50FF)) →
    ∃ t, step s = .next t ∧ t = { s with host := rest, err := t.err, latch := t.latch }

/-! ## What the core computes -/

/-- Rule R126: after n accepted `ABSORB`s since `INIT` or reset, n div 136 permutations have run, one for each
full block, `CNT` is n mod 136, and the buffer holds the bytes that are left (which the spec derives from
rule R124). Any other words may come between the `ABSORB`s: `RDCR`, `RDDIG`, words that are rejected (rule
R136). -/
def Obligations.AbsorbedBlocksAndPendingBytes : Prop :=
  ∀ (ws : List CommandWord) (m : List Byte) (s t : State), 0x1000 ∉ ws → 0x3000 ∉ ws → m = absorbedBytes ws →
    (t = commandRun (0x1000 :: ws) s ∨ t = commandRun ws State.reset) →
    t.cnt.toNat = m.length % 136 ∧ t.lanes = absorbedLanes m (m.length / 136) ∧ t.dv = false ∧
      t.buf.wf = true ∧
      ∀ i, t.buf.read i = if i < m.length % 136 then m.getD (136 * (m.length / 136) + i) 0 else 0

/-- Rule R135: `INIT`, the `ABSORB`s of a message and `FINAL` leave the lanes of the message's hash, and
`RDDIG i` then answers byte i of it, from any state (which the spec derives from rules R124 to R133; rule
R158). -/
def Obligations.CommandsComputeTheHash : Prop :=
  ∀ (m : List Byte) (s : State),
    let t := commandRun (hashWords m) s
    t.lanes = hashLanes m ∧ t.dv = true ∧ t.cnt = 0 ∧ t.buf = [] ∧
      ∀ i : Fin 32, (commandExec (commandWord 4 (BitVec.ofNat 8 i.val)) t).2 =
        0#2 ++ imageByte (hashLanes m) ⟨i.val, by omega⟩

/-! ## The command port -/

/-- `cmd_ready` is 1 exactly when the sequencer is idle, no response waits to be delivered and `rst` is not
asserted, and it decides whether a step accepts the word presented: the word is taken off the port exactly
then (rules R70, R210). -/
def Obligations.CmdReadyDecidesAcceptance : Prop :=
  (∀ s : State, s.cmdReady = true ↔ s.uop.code = 0 ∧ s.latch = none ∧ ∀ rest, s.host ≠ .reset :: rest) ∧
  (∀ (s t : State) (w : CommandWord) (rest : List HostMove), s.host = .present w :: rest → step s = .next t →
    (s.cmdReady = true → t.host = rest) ∧ (s.cmdReady = false → t.host = s.host))
end

