-- ==== Sys2Proof/Laws/Memory.lean ====
section
/-!
SUPPORT. The laws of the byte space `BUF`: a read after a write, the canonical form, and that equal
contents are equal data.
-/

namespace Sys2Proof.Machine

@[simp] theorem Memory.read_nil (i : Nat) : Memory.read [] i = 0 := rfl

@[simp] theorem Memory.wf_nil : Memory.wf [] = true := rfl

/-- The canonical form, one entry at a time. -/
theorem Memory.wfFrom_cons {lo k : Nat} {v : Byte} {m : Memory} :
    Memory.wfFrom lo ((k, v) :: m) = true ↔
      lo ≤ k ∧ k < 136 ∧ v ≠ 0 ∧ Memory.wfFrom (k + 1) m = true := by
  simp [Memory.wfFrom, and_assoc]

theorem Memory.wfFrom_mono {lo lo' : Nat} {m : Memory} (h : Memory.wfFrom lo m = true)
    (hl : lo' ≤ lo) : Memory.wfFrom lo' m = true := by
  cases m with
  | nil => rfl
  | cons c m =>
    obtain ⟨k, v⟩ := c
    rw [Memory.wfFrom_cons] at h ⊢
    exact ⟨by omega, h.2⟩

/-- Nothing is listed below the bound. -/
theorem Memory.read_below {lo : Nat} {m : Memory} (h : Memory.wfFrom lo m = true) {i : Nat}
    (hi : i < lo) : m.read i = 0 := by
  induction m generalizing lo with
  | nil => rfl
  | cons c m ih =>
    obtain ⟨k, v⟩ := c
    rw [Memory.wfFrom_cons] at h
    rw [Memory.read, if_neg (by omega)]
    exact ih h.2.2.2 (by omega)

/-- Nothing is listed at or above 136. -/
theorem Memory.read_beyond {m : Memory} (h : m.wf = true) {i : Nat} (hi : 136 ≤ i) :
    m.read i = 0 := by
  suffices ∀ lo, Memory.wfFrom lo m = true → m.read i = 0 from this 0 h
  clear h
  induction m with
  | nil => intro lo _; rfl
  | cons c m ih =>
    obtain ⟨k, v⟩ := c
    intro lo h
    rw [Memory.wfFrom_cons] at h
    rw [Memory.read, if_neg (by omega)]
    exact ih _ h.2.2.2

/-- A read after a write: the byte written at its address, the old byte elsewhere. -/
theorem Memory.read_write {m : Memory} (h : m.wf = true) (i j : Nat) (v : Byte) :
    (m.write i v).read j = if j = i then v else m.read j := by
  suffices ∀ lo, Memory.wfFrom lo m = true →
      (m.write i v).read j = if j = i then v else m.read j from this 0 h
  clear h
  induction m with
  | nil =>
    intro lo _
    by_cases hv : v = 0
    · simp [Memory.write, hv]
    · simp only [Memory.write, hv, if_false, Memory.read, eq_comm (a := i)]
  | cons c m ih =>
    obtain ⟨k, u⟩ := c
    intro lo h
    rw [Memory.wfFrom_cons] at h
    have hbelow : ∀ x, x ≤ k → Memory.read m x = 0 := fun x hx => Memory.read_below h.2.2.2 (by omega)
    unfold Memory.write
    split
    · next hik =>
      split
      · next hv =>
        by_cases hj : j = i
        · subst hj; rw [Memory.read, if_neg (by omega), hbelow j (by omega), if_pos rfl, hv]
        · rw [if_neg hj]
      · by_cases hj : j = i
        · subst hj; simp [Memory.read]
        · rw [Memory.read, if_neg (by omega), if_neg hj]
    · split
      · next hik =>
        subst hik
        split
        · next hv =>
          by_cases hj : j = i
          · subst hj; rw [if_pos rfl, hbelow j (by omega), hv]
          · rw [if_neg hj, Memory.read, if_neg (by omega)]
        · by_cases hj : j = i
          · subst hj; simp [Memory.read]
          · rw [Memory.read, if_neg (by omega), if_neg hj, Memory.read, if_neg (by omega)]
      · by_cases hj : k = j
        · subst hj
          rw [Memory.read, if_pos rfl, if_neg (by omega), Memory.read, if_pos rfl]
        · rw [Memory.read, if_neg hj, ih _ h.2.2.2, Memory.read, if_neg hj]

/-- A write inside the buffer keeps the canonical form. -/
theorem Memory.wf_write {m : Memory} (h : m.wf = true) {i : Nat} (hi : i < 136) (v : Byte) :
    (m.write i v).wf = true := by
  suffices ∀ lo, lo ≤ i → Memory.wfFrom lo m = true → Memory.wfFrom lo (m.write i v) = true from
    this 0 (Nat.zero_le _) h
  clear h
  induction m with
  | nil =>
    intro lo hl _
    unfold Memory.write
    split
    · rfl
    · next hv => exact Memory.wfFrom_cons.2 ⟨hl, hi, hv, rfl⟩
  | cons c m ih =>
    obtain ⟨k, u⟩ := c
    intro lo hl h
    have h' := Memory.wfFrom_cons.1 h
    unfold Memory.write
    split
    · split
      · exact h
      · next hik hv => exact Memory.wfFrom_cons.2 ⟨hl, hi, hv,
          Memory.wfFrom_cons.2 ⟨by omega, h'.2⟩⟩
    · split
      · next hik =>
        split
        · exact Memory.wfFrom_mono h'.2.2.2 (by omega)
        · next hv => exact Memory.wfFrom_cons.2 ⟨hl, hi, hv, hik ▸ h'.2.2.2⟩
      · exact Memory.wfFrom_cons.2 ⟨h'.1, h'.2.1, h'.2.2.1, ih _ (by omega) h'.2.2.2⟩

/-- Zero-filling inside the buffer keeps the canonical form. -/
theorem Memory.wf_zeroFill {m : Memory} (h : m.wf = true) (i n : Nat) (hn : i + n ≤ 136) :
    (m.zeroFill i n).wf = true := by
  induction n generalizing m i with
  | zero => exact h
  | succ n ih => exact ih (Memory.wf_write h (by omega) 0) (i + 1) (by omega)

/-- A read after zero-filling: 0x00 at the filled addresses, the old byte elsewhere. -/
theorem Memory.read_zeroFill {m : Memory} (h : m.wf = true) (i n j : Nat) (hn : i + n ≤ 136) :
    (m.zeroFill i n).read j = if i ≤ j ∧ j < i + n then 0 else m.read j := by
  induction n generalizing m i with
  | zero => rw [if_neg (by omega)]; rfl
  | succ n ih =>
    rw [Memory.zeroFill, ih (Memory.wf_write h (by omega) 0) (i + 1) (by omega),
      Memory.read_write h]
    by_cases h1 : i + 1 ≤ j ∧ j < i + 1 + n
    · rw [if_pos h1, if_pos (by omega)]
    · rw [if_neg h1]
      by_cases h2 : j = i
      · rw [if_pos h2, if_pos (by omega)]
      · rw [if_neg h2, if_neg (by omega)]

/-- Equal contents are equal data. -/
theorem Memory.ext {m m' : Memory} (h : m.wf = true) (h' : m'.wf = true)
    (heq : ∀ i, i < 136 → m.read i = m'.read i) : m = m' := by
  have heq' : ∀ i, m.read i = m'.read i := fun i => by
    by_cases hi : i < 136
    · exact heq i hi
    · rw [Memory.read_beyond h (by omega), Memory.read_beyond h' (by omega)]
  clear heq
  suffices ∀ lo, Memory.wfFrom lo m = true → Memory.wfFrom lo m' = true → m = m' from this 0 h h'
  clear h h'
  induction m generalizing m' with
  | nil =>
    intro lo _ h'
    cases m' with
    | nil => rfl
    | cons c m' =>
      obtain ⟨k, v⟩ := c
      have := heq' k
      rw [Memory.wfFrom_cons] at h'
      simp only [Memory.read, if_true] at this
      exact absurd this.symm h'.2.2.1
  | cons c m ih =>
    obtain ⟨k, u⟩ := c
    intro lo h h'
    rw [Memory.wfFrom_cons] at h
    cases m' with
    | nil =>
      have := heq' k
      simp only [Memory.read, if_true] at this
      exact absurd this h.2.2.1
    | cons c m' =>
      obtain ⟨k', v⟩ := c
      rw [Memory.wfFrom_cons] at h'
      have hk : k = k' := by
        rcases Nat.lt_trichotomy k k' with hlt | heqk | hgt
        · have := heq' k
          rw [Memory.read, if_pos rfl, Memory.read, if_neg (by omega),
            Memory.read_below h'.2.2.2 (by omega)] at this
          exact absurd this h.2.2.1
        · exact heqk
        · have := heq' k'
          rw [Memory.read, if_neg (by omega), Memory.read, if_pos rfl,
            Memory.read_below h.2.2.2 (by omega)] at this
          exact absurd this.symm h'.2.2.1
      subst hk
      have hv : u = v := by simpa [Memory.read] using heq' k
      subst hv
      congr 1
      refine ih (fun i => ?_) _ h.2.2.2 h'.2.2.2
      by_cases hi : i ≤ k
      · rw [Memory.read_below h.2.2.2 (by omega), Memory.read_below h'.2.2.2 (by omega)]
      · have := heq' i
        rwa [Memory.read, if_neg (by omega), Memory.read, if_neg (by omega)] at this

/-- The padded block is in canonical form. -/
theorem padBlock_wf {m : Memory} (h : m.wf = true) {c : Nat} (hc : c ≤ 135) :
    (padBlock m c).wf = true :=
  Memory.wf_write (Memory.wf_zeroFill (Memory.wf_write h (by omega) _) _ _
    (by simp only [Config.rate]; omega)) (by decide) _

/-- What `INIT` and `BUFCLR` leave, and what reset leaves, is in canonical form. -/
theorem reset_buf_wf : State.reset.buf.wf = true := rfl

/-- Every byte of the padded block. -/
theorem read_padBlock {m : Memory} (hw : m.wf = true) {c : Nat} (hc : c ≤ 135) (i : Nat) :
    (padBlock m c).read i =
      if i < c then m.read i
      else if i = c then (if c = 135 then 0x81 else 0x01)
      else if i = 135 then 0x80
      else 0 := by
  have w1 := Memory.wf_write hw (i := c) (by omega) Config.dsep
  have hz : c + 1 + (Config.rate - 1 - c) ≤ 136 := by simp only [Config.rate]; omega
  have w2 := Memory.wf_zeroFill w1 (c + 1) (Config.rate - 1 - c) hz
  simp only [padBlock]
  rw [Memory.read_write w2, Memory.read_zeroFill w1 _ _ _ hz, Memory.read_zeroFill w1 _ _ _ hz,
    Memory.read_write hw, Memory.read_write hw]
  simp only [Config.rate, Nat.reduceSub]
  rcases Nat.lt_trichotomy i 135 with h1 | h1 | h1
  · rw [if_neg (by omega)]
    rcases Nat.lt_trichotomy i c with h | h | h
    · rw [if_neg (by omega), if_neg (by omega), if_pos h]
    · rw [if_neg (by omega), if_pos h, if_neg (by omega), if_pos h, if_neg (by omega)]
    · rw [if_pos (by omega), if_neg (by omega), if_neg (by omega), if_neg (by omega)]
  · subst h1
    rw [if_pos rfl]
    by_cases h : c = 135
    · subst h; simp
    · rw [if_pos (by omega), if_neg (by omega), if_neg (by omega), if_pos rfl]; rfl
  · repeat rw [if_neg (by omega)]
    exact Memory.read_beyond hw (by omega)

end Sys2Proof.Machine
end

