-- ==== Sys2Proof/Laws/State.lean ====
section
/-!
SUPPORT. One lemma per field per named update of the state, each true by unfolding, so that no later proof
unfolds a record update.
-/

namespace Sys2Proof.Machine

/-! ### answer -/

@[simp] theorem State.answer_lanes (s : State) (d : Byte) : (s.answer d).lanes = s.lanes := rfl
@[simp] theorem State.answer_buf (s : State) (d : Byte) : (s.answer d).buf = s.buf := rfl
@[simp] theorem State.answer_cnt (s : State) (d : Byte) : (s.answer d).cnt = s.cnt := rfl
@[simp] theorem State.answer_dv (s : State) (d : Byte) : (s.answer d).dv = s.dv := rfl
@[simp] theorem State.answer_err (s : State) (d : Byte) : (s.answer d).err = s.err := rfl
@[simp] theorem State.answer_uop (s : State) (d : Byte) : (s.answer d).uop = .idle := rfl
@[simp] theorem State.answer_rnd (s : State) (d : Byte) : (s.answer d).rnd = s.rnd := rfl
@[simp] theorem State.answer_fin (s : State) (d : Byte) : (s.answer d).fin = s.fin := rfl
@[simp] theorem State.answer_latch (s : State) (d : Byte) : (s.answer d).latch = some (respond 0 d) := rfl
@[simp] theorem State.answer_host (s : State) (d : Byte) : (s.answer d).host = s.host := rfl
@[simp] theorem State.answer_rsp (s : State) (d : Byte) : (s.answer d).rsp = s.rsp := rfl

/-! ### deliver -/

@[simp] theorem State.deliver_lanes (s : State) : s.deliver.lanes = s.lanes := rfl
@[simp] theorem State.deliver_buf (s : State) : s.deliver.buf = s.buf := rfl
@[simp] theorem State.deliver_cnt (s : State) : s.deliver.cnt = s.cnt := rfl
@[simp] theorem State.deliver_dv (s : State) : s.deliver.dv = s.dv := rfl
@[simp] theorem State.deliver_err (s : State) : s.deliver.err = s.err := rfl
@[simp] theorem State.deliver_uop (s : State) : s.deliver.uop = s.uop := rfl
@[simp] theorem State.deliver_rnd (s : State) : s.deliver.rnd = s.rnd := rfl
@[simp] theorem State.deliver_fin (s : State) : s.deliver.fin = s.fin := rfl
@[simp] theorem State.deliver_latch (s : State) : s.deliver.latch = none := rfl
@[simp] theorem State.deliver_host (s : State) : s.deliver.host = s.host := rfl
@[simp] theorem State.deliver_rsp (s : State) : s.deliver.rsp = s.rsp ++ s.latch.toList := rfl

/-! ### recordCause -/

@[simp] theorem State.recordCause_lanes (c : Cause) (s : State) : (s.recordCause c).lanes = s.lanes := rfl
@[simp] theorem State.recordCause_buf (c : Cause) (s : State) : (s.recordCause c).buf = s.buf := rfl
@[simp] theorem State.recordCause_cnt (c : Cause) (s : State) : (s.recordCause c).cnt = s.cnt := rfl
@[simp] theorem State.recordCause_dv (c : Cause) (s : State) : (s.recordCause c).dv = s.dv := rfl
@[simp] theorem State.recordCause_err (c : Cause) (s : State) : (s.recordCause c).err = if s.err = 0 then c.code else s.err := rfl
@[simp] theorem State.recordCause_uop (c : Cause) (s : State) : (s.recordCause c).uop = s.uop := rfl
@[simp] theorem State.recordCause_rnd (c : Cause) (s : State) : (s.recordCause c).rnd = s.rnd := rfl
@[simp] theorem State.recordCause_fin (c : Cause) (s : State) : (s.recordCause c).fin = s.fin := rfl
@[simp] theorem State.recordCause_latch (c : Cause) (s : State) : (s.recordCause c).latch = s.latch := rfl
@[simp] theorem State.recordCause_host (c : Cause) (s : State) : (s.recordCause c).host = s.host := rfl
@[simp] theorem State.recordCause_rsp (c : Cause) (s : State) : (s.recordCause c).rsp = s.rsp := rfl

/-! ### reject -/

@[simp] theorem State.reject_lanes (c : Cause) (s : State) : (s.reject c).lanes = s.lanes := rfl
@[simp] theorem State.reject_buf (c : Cause) (s : State) : (s.reject c).buf = s.buf := rfl
@[simp] theorem State.reject_cnt (c : Cause) (s : State) : (s.reject c).cnt = s.cnt := rfl
@[simp] theorem State.reject_dv (c : Cause) (s : State) : (s.reject c).dv = s.dv := rfl
@[simp] theorem State.reject_err (c : Cause) (s : State) : (s.reject c).err = if s.err = 0 then c.code else s.err := rfl
@[simp] theorem State.reject_uop (c : Cause) (s : State) : (s.reject c).uop = .idle := rfl
@[simp] theorem State.reject_rnd (c : Cause) (s : State) : (s.reject c).rnd = s.rnd := rfl
@[simp] theorem State.reject_fin (c : Cause) (s : State) : (s.reject c).fin = s.fin := rfl
@[simp] theorem State.reject_latch (c : Cause) (s : State) : (s.reject c).latch = some (respond c.code 0) := rfl
@[simp] theorem State.reject_host (c : Cause) (s : State) : (s.reject c).host = s.host := rfl
@[simp] theorem State.reject_rsp (c : Cause) (s : State) : (s.reject c).rsp = s.rsp := rfl

/-! ### takeReset -/

@[simp] theorem State.takeReset_lanes (s : State) : s.takeReset.lanes = Vector.replicate 25 0 := rfl
@[simp] theorem State.takeReset_buf (s : State) : s.takeReset.buf = [] := rfl
@[simp] theorem State.takeReset_cnt (s : State) : s.takeReset.cnt = 0 := rfl
@[simp] theorem State.takeReset_dv (s : State) : s.takeReset.dv = false := rfl
@[simp] theorem State.takeReset_err (s : State) : s.takeReset.err = 0 := rfl
@[simp] theorem State.takeReset_uop (s : State) : s.takeReset.uop = .idle := rfl
@[simp] theorem State.takeReset_rnd (s : State) : s.takeReset.rnd = 0 := rfl
@[simp] theorem State.takeReset_fin (s : State) : s.takeReset.fin = false := rfl
@[simp] theorem State.takeReset_latch (s : State) : s.takeReset.latch = none := rfl
@[simp] theorem State.takeReset_host (s : State) : s.takeReset.host = s.host.tail := rfl
@[simp] theorem State.takeReset_rsp (s : State) : s.takeReset.rsp = s.rsp := rfl

/-! ### dropMove -/

@[simp] theorem State.dropMove_lanes (s : State) : s.dropMove.lanes = s.lanes := rfl
@[simp] theorem State.dropMove_buf (s : State) : s.dropMove.buf = s.buf := rfl
@[simp] theorem State.dropMove_cnt (s : State) : s.dropMove.cnt = s.cnt := rfl
@[simp] theorem State.dropMove_dv (s : State) : s.dropMove.dv = s.dv := rfl
@[simp] theorem State.dropMove_err (s : State) : s.dropMove.err = s.err := rfl
@[simp] theorem State.dropMove_uop (s : State) : s.dropMove.uop = s.uop := rfl
@[simp] theorem State.dropMove_rnd (s : State) : s.dropMove.rnd = s.rnd := rfl
@[simp] theorem State.dropMove_fin (s : State) : s.dropMove.fin = s.fin := rfl
@[simp] theorem State.dropMove_latch (s : State) : s.dropMove.latch = s.latch := rfl
@[simp] theorem State.dropMove_host (s : State) : s.dropMove.host = s.host.tail := rfl
@[simp] theorem State.dropMove_rsp (s : State) : s.dropMove.rsp = s.rsp := rfl

/-! ### presentNext -/

@[simp] theorem State.presentNext_lanes (s : State) (w : CommandWord) : (s.presentNext w).lanes = s.lanes := rfl
@[simp] theorem State.presentNext_buf (s : State) (w : CommandWord) : (s.presentNext w).buf = s.buf := rfl
@[simp] theorem State.presentNext_cnt (s : State) (w : CommandWord) : (s.presentNext w).cnt = s.cnt := rfl
@[simp] theorem State.presentNext_dv (s : State) (w : CommandWord) : (s.presentNext w).dv = s.dv := rfl
@[simp] theorem State.presentNext_err (s : State) (w : CommandWord) : (s.presentNext w).err = s.err := rfl
@[simp] theorem State.presentNext_uop (s : State) (w : CommandWord) : (s.presentNext w).uop = .idle := rfl
@[simp] theorem State.presentNext_rnd (s : State) (w : CommandWord) : (s.presentNext w).rnd = s.rnd := rfl
@[simp] theorem State.presentNext_fin (s : State) (w : CommandWord) : (s.presentNext w).fin = s.fin := rfl
@[simp] theorem State.presentNext_latch (s : State) (w : CommandWord) : (s.presentNext w).latch = none := rfl
@[simp] theorem State.presentNext_host (s : State) (w : CommandWord) : (s.presentNext w).host = .present w :: s.host := rfl
@[simp] theorem State.presentNext_rsp (s : State) (w : CommandWord) : (s.presentNext w).rsp = s.rsp ++ s.latch.toList := rfl

/-! ### atUop -/

@[simp] theorem State.atUop_lanes (s : State) (u : Uop) : (s.atUop u).lanes = s.lanes := rfl
@[simp] theorem State.atUop_buf (s : State) (u : Uop) : (s.atUop u).buf = s.buf := rfl
@[simp] theorem State.atUop_cnt (s : State) (u : Uop) : (s.atUop u).cnt = s.cnt := rfl
@[simp] theorem State.atUop_dv (s : State) (u : Uop) : (s.atUop u).dv = s.dv := rfl
@[simp] theorem State.atUop_err (s : State) (u : Uop) : (s.atUop u).err = s.err := rfl
@[simp] theorem State.atUop_uop (s : State) (u : Uop) : (s.atUop u).uop = u := rfl
@[simp] theorem State.atUop_rnd (s : State) (u : Uop) : (s.atUop u).rnd = s.rnd := rfl
@[simp] theorem State.atUop_fin (s : State) (u : Uop) : (s.atUop u).fin = s.fin := rfl
@[simp] theorem State.atUop_latch (s : State) (u : Uop) : (s.atUop u).latch = s.latch := rfl
@[simp] theorem State.atUop_host (s : State) (u : Uop) : (s.atUop u).host = dropResets s.host := rfl
@[simp] theorem State.atUop_rsp (s : State) (u : Uop) : (s.atUop u).rsp = s.rsp := rfl

/-! ### thetaStep -/

@[simp] theorem State.thetaStep_lanes (s : State) : s.thetaStep.lanes = theta s.lanes := rfl
@[simp] theorem State.thetaStep_buf (s : State) : s.thetaStep.buf = s.buf := rfl
@[simp] theorem State.thetaStep_cnt (s : State) : s.thetaStep.cnt = s.cnt := rfl
@[simp] theorem State.thetaStep_dv (s : State) : s.thetaStep.dv = s.dv := rfl
@[simp] theorem State.thetaStep_err (s : State) : s.thetaStep.err = s.err := rfl
@[simp] theorem State.thetaStep_uop (s : State) : s.thetaStep.uop = .rho := rfl
@[simp] theorem State.thetaStep_rnd (s : State) : s.thetaStep.rnd = s.rnd := rfl
@[simp] theorem State.thetaStep_fin (s : State) : s.thetaStep.fin = s.fin := rfl
@[simp] theorem State.thetaStep_latch (s : State) : s.thetaStep.latch = s.latch := rfl
@[simp] theorem State.thetaStep_host (s : State) : s.thetaStep.host = s.host := rfl
@[simp] theorem State.thetaStep_rsp (s : State) : s.thetaStep.rsp = s.rsp := rfl

/-! ### rhoStep -/

@[simp] theorem State.rhoStep_lanes (s : State) : s.rhoStep.lanes = rho s.lanes := rfl
@[simp] theorem State.rhoStep_buf (s : State) : s.rhoStep.buf = s.buf := rfl
@[simp] theorem State.rhoStep_cnt (s : State) : s.rhoStep.cnt = s.cnt := rfl
@[simp] theorem State.rhoStep_dv (s : State) : s.rhoStep.dv = s.dv := rfl
@[simp] theorem State.rhoStep_err (s : State) : s.rhoStep.err = s.err := rfl
@[simp] theorem State.rhoStep_uop (s : State) : s.rhoStep.uop = .pi := rfl
@[simp] theorem State.rhoStep_rnd (s : State) : s.rhoStep.rnd = s.rnd := rfl
@[simp] theorem State.rhoStep_fin (s : State) : s.rhoStep.fin = s.fin := rfl
@[simp] theorem State.rhoStep_latch (s : State) : s.rhoStep.latch = s.latch := rfl
@[simp] theorem State.rhoStep_host (s : State) : s.rhoStep.host = s.host := rfl
@[simp] theorem State.rhoStep_rsp (s : State) : s.rhoStep.rsp = s.rsp := rfl

/-! ### piStep -/

@[simp] theorem State.piStep_lanes (s : State) : s.piStep.lanes = pi s.lanes := rfl
@[simp] theorem State.piStep_buf (s : State) : s.piStep.buf = s.buf := rfl
@[simp] theorem State.piStep_cnt (s : State) : s.piStep.cnt = s.cnt := rfl
@[simp] theorem State.piStep_dv (s : State) : s.piStep.dv = s.dv := rfl
@[simp] theorem State.piStep_err (s : State) : s.piStep.err = s.err := rfl
@[simp] theorem State.piStep_uop (s : State) : s.piStep.uop = .chi := rfl
@[simp] theorem State.piStep_rnd (s : State) : s.piStep.rnd = s.rnd := rfl
@[simp] theorem State.piStep_fin (s : State) : s.piStep.fin = s.fin := rfl
@[simp] theorem State.piStep_latch (s : State) : s.piStep.latch = s.latch := rfl
@[simp] theorem State.piStep_host (s : State) : s.piStep.host = s.host := rfl
@[simp] theorem State.piStep_rsp (s : State) : s.piStep.rsp = s.rsp := rfl

/-! ### chiStep -/

@[simp] theorem State.chiStep_lanes (s : State) : s.chiStep.lanes = chi s.lanes := rfl
@[simp] theorem State.chiStep_buf (s : State) : s.chiStep.buf = s.buf := rfl
@[simp] theorem State.chiStep_cnt (s : State) : s.chiStep.cnt = s.cnt := rfl
@[simp] theorem State.chiStep_dv (s : State) : s.chiStep.dv = s.dv := rfl
@[simp] theorem State.chiStep_err (s : State) : s.chiStep.err = s.err := rfl
@[simp] theorem State.chiStep_uop (s : State) : s.chiStep.uop = .iota := rfl
@[simp] theorem State.chiStep_rnd (s : State) : s.chiStep.rnd = s.rnd := rfl
@[simp] theorem State.chiStep_fin (s : State) : s.chiStep.fin = s.fin := rfl
@[simp] theorem State.chiStep_latch (s : State) : s.chiStep.latch = s.latch := rfl
@[simp] theorem State.chiStep_host (s : State) : s.chiStep.host = s.host := rfl
@[simp] theorem State.chiStep_rsp (s : State) : s.chiStep.rsp = s.rsp := rfl

/-! ### iotaStep -/

@[simp] theorem State.iotaStep_lanes (s : State) : s.iotaStep.lanes = iota s.lanes s.rnd := rfl
@[simp] theorem State.iotaStep_buf (s : State) : s.iotaStep.buf = s.buf := rfl
@[simp] theorem State.iotaStep_cnt (s : State) : s.iotaStep.cnt = s.cnt := rfl
@[simp] theorem State.iotaStep_dv (s : State) : s.iotaStep.dv = s.dv := rfl
@[simp] theorem State.iotaStep_err (s : State) : s.iotaStep.err = s.err := rfl
@[simp] theorem State.iotaStep_uop (s : State) : s.iotaStep.uop = afterIota s.rnd := rfl
@[simp] theorem State.iotaStep_rnd (s : State) : s.iotaStep.rnd = nextRound s.rnd := rfl
@[simp] theorem State.iotaStep_fin (s : State) : s.iotaStep.fin = s.fin := rfl
@[simp] theorem State.iotaStep_latch (s : State) : s.iotaStep.latch = s.latch := rfl
@[simp] theorem State.iotaStep_host (s : State) : s.iotaStep.host = s.host := rfl
@[simp] theorem State.iotaStep_rsp (s : State) : s.iotaStep.rsp = s.rsp := rfl

/-! ### roundStep -/

@[simp] theorem State.roundStep_lanes (s : State) (r : Fin 24) : (s.roundStep r).lanes = roundFunction s.lanes r := rfl
@[simp] theorem State.roundStep_buf (s : State) (r : Fin 24) : (s.roundStep r).buf = s.buf := rfl
@[simp] theorem State.roundStep_cnt (s : State) (r : Fin 24) : (s.roundStep r).cnt = s.cnt := rfl
@[simp] theorem State.roundStep_dv (s : State) (r : Fin 24) : (s.roundStep r).dv = s.dv := rfl
@[simp] theorem State.roundStep_err (s : State) (r : Fin 24) : (s.roundStep r).err = s.err := rfl
@[simp] theorem State.roundStep_uop (s : State) (r : Fin 24) : (s.roundStep r).uop = afterIota r := rfl
@[simp] theorem State.roundStep_rnd (s : State) (r : Fin 24) : (s.roundStep r).rnd = nextRound r := rfl
@[simp] theorem State.roundStep_fin (s : State) (r : Fin 24) : (s.roundStep r).fin = s.fin := rfl
@[simp] theorem State.roundStep_latch (s : State) (r : Fin 24) : (s.roundStep r).latch = s.latch := rfl
@[simp] theorem State.roundStep_host (s : State) (r : Fin 24) : (s.roundStep r).host = s.host := rfl
@[simp] theorem State.roundStep_rsp (s : State) (r : Fin 24) : (s.roundStep r).rsp = s.rsp := rfl

/-! ### bufClr -/

@[simp] theorem State.bufClr_lanes (s : State) : s.bufClr.lanes = s.lanes := rfl
@[simp] theorem State.bufClr_buf (s : State) : s.bufClr.buf = [] := rfl
@[simp] theorem State.bufClr_cnt (s : State) : s.bufClr.cnt = 0 := rfl
@[simp] theorem State.bufClr_dv (s : State) : s.bufClr.dv = s.dv := rfl
@[simp] theorem State.bufClr_err (s : State) : s.bufClr.err = s.err := rfl
@[simp] theorem State.bufClr_uop (s : State) : s.bufClr.uop = s.uop := rfl
@[simp] theorem State.bufClr_rnd (s : State) : s.bufClr.rnd = s.rnd := rfl
@[simp] theorem State.bufClr_fin (s : State) : s.bufClr.fin = s.fin := rfl
@[simp] theorem State.bufClr_latch (s : State) : s.bufClr.latch = s.latch := rfl
@[simp] theorem State.bufClr_host (s : State) : s.bufClr.host = s.host := rfl
@[simp] theorem State.bufClr_rsp (s : State) : s.bufClr.rsp = s.rsp := rfl

/-! ### append -/

@[simp] theorem State.append_lanes (b : Byte) (s : State) : (s.append b).lanes = s.lanes := rfl
@[simp] theorem State.append_buf (b : Byte) (s : State) : (s.append b).buf = s.buf.write s.cnt.toNat b := rfl
@[simp] theorem State.append_cnt (b : Byte) (s : State) : (s.append b).cnt = s.cnt + 1 := rfl
@[simp] theorem State.append_dv (b : Byte) (s : State) : (s.append b).dv = s.dv := rfl
@[simp] theorem State.append_err (b : Byte) (s : State) : (s.append b).err = s.err := rfl
@[simp] theorem State.append_uop (b : Byte) (s : State) : (s.append b).uop = s.uop := rfl
@[simp] theorem State.append_rnd (b : Byte) (s : State) : (s.append b).rnd = s.rnd := rfl
@[simp] theorem State.append_fin (b : Byte) (s : State) : (s.append b).fin = s.fin := rfl
@[simp] theorem State.append_latch (b : Byte) (s : State) : (s.append b).latch = s.latch := rfl
@[simp] theorem State.append_host (b : Byte) (s : State) : (s.append b).host = s.host := rfl
@[simp] theorem State.append_rsp (b : Byte) (s : State) : (s.append b).rsp = s.rsp := rfl

/-! ### padBlk -/

@[simp] theorem State.padBlk_lanes (s : State) : s.padBlk.lanes = s.lanes := rfl
@[simp] theorem State.padBlk_buf (s : State) : s.padBlk.buf = padBlock s.buf s.cnt.toNat := rfl
@[simp] theorem State.padBlk_cnt (s : State) : s.padBlk.cnt = s.cnt := rfl
@[simp] theorem State.padBlk_dv (s : State) : s.padBlk.dv = s.dv := rfl
@[simp] theorem State.padBlk_err (s : State) : s.padBlk.err = s.err := rfl
@[simp] theorem State.padBlk_uop (s : State) : s.padBlk.uop = s.uop := rfl
@[simp] theorem State.padBlk_rnd (s : State) : s.padBlk.rnd = s.rnd := rfl
@[simp] theorem State.padBlk_fin (s : State) : s.padBlk.fin = s.fin := rfl
@[simp] theorem State.padBlk_latch (s : State) : s.padBlk.latch = s.latch := rfl
@[simp] theorem State.padBlk_host (s : State) : s.padBlk.host = s.host := rfl
@[simp] theorem State.padBlk_rsp (s : State) : s.padBlk.rsp = s.rsp := rfl

/-! ### xorinStep -/

@[simp] theorem State.xorinStep_lanes (s : State) : s.xorinStep.lanes = xorIn s.lanes s.buf.read := rfl
@[simp] theorem State.xorinStep_buf (s : State) : s.xorinStep.buf = s.buf := rfl
@[simp] theorem State.xorinStep_cnt (s : State) : s.xorinStep.cnt = s.cnt := rfl
@[simp] theorem State.xorinStep_dv (s : State) : s.xorinStep.dv = s.dv := rfl
@[simp] theorem State.xorinStep_err (s : State) : s.xorinStep.err = s.err := rfl
@[simp] theorem State.xorinStep_uop (s : State) : s.xorinStep.uop = .theta := rfl
@[simp] theorem State.xorinStep_rnd (s : State) : s.xorinStep.rnd = 0 := rfl
@[simp] theorem State.xorinStep_fin (s : State) : s.xorinStep.fin = s.fin := rfl
@[simp] theorem State.xorinStep_latch (s : State) : s.xorinStep.latch = s.latch := rfl
@[simp] theorem State.xorinStep_host (s : State) : s.xorinStep.host = s.host := rfl
@[simp] theorem State.xorinStep_rsp (s : State) : s.xorinStep.rsp = s.rsp := rfl

/-! ### bufclrStep -/

@[simp] theorem State.bufclrStep_lanes (s : State) : s.bufclrStep.lanes = s.lanes := rfl
@[simp] theorem State.bufclrStep_buf (s : State) : s.bufclrStep.buf = [] := rfl
@[simp] theorem State.bufclrStep_cnt (s : State) : s.bufclrStep.cnt = 0 := rfl
@[simp] theorem State.bufclrStep_dv (s : State) : s.bufclrStep.dv = s.dv := rfl
@[simp] theorem State.bufclrStep_err (s : State) : s.bufclrStep.err = s.err := rfl
@[simp] theorem State.bufclrStep_uop (s : State) : s.bufclrStep.uop = if s.fin then .setdv else .idle := rfl
@[simp] theorem State.bufclrStep_rnd (s : State) : s.bufclrStep.rnd = s.rnd := rfl
@[simp] theorem State.bufclrStep_fin (s : State) : s.bufclrStep.fin = s.fin := rfl
@[simp] theorem State.bufclrStep_latch (s : State) : s.bufclrStep.latch = s.latch := rfl
@[simp] theorem State.bufclrStep_host (s : State) : s.bufclrStep.host = s.host := rfl
@[simp] theorem State.bufclrStep_rsp (s : State) : s.bufclrStep.rsp = s.rsp := rfl

/-! ### setdvStep -/

@[simp] theorem State.setdvStep_lanes (s : State) : s.setdvStep.lanes = s.lanes := rfl
@[simp] theorem State.setdvStep_buf (s : State) : s.setdvStep.buf = s.buf := rfl
@[simp] theorem State.setdvStep_cnt (s : State) : s.setdvStep.cnt = s.cnt := rfl
@[simp] theorem State.setdvStep_dv (s : State) : s.setdvStep.dv = true := rfl
@[simp] theorem State.setdvStep_err (s : State) : s.setdvStep.err = s.err := rfl
@[simp] theorem State.setdvStep_uop (s : State) : s.setdvStep.uop = .idle := rfl
@[simp] theorem State.setdvStep_rnd (s : State) : s.setdvStep.rnd = s.rnd := rfl
@[simp] theorem State.setdvStep_fin (s : State) : s.setdvStep.fin = false := rfl
@[simp] theorem State.setdvStep_latch (s : State) : s.setdvStep.latch = s.latch := rfl
@[simp] theorem State.setdvStep_host (s : State) : s.setdvStep.host = s.host := rfl
@[simp] theorem State.setdvStep_rsp (s : State) : s.setdvStep.rsp = s.rsp := rfl

/-! ### startBlock -/

@[simp] theorem State.startBlock_lanes (s : State) (f : Bool) : (s.startBlock f).lanes = s.lanes := rfl
@[simp] theorem State.startBlock_buf (s : State) (f : Bool) : (s.startBlock f).buf = s.buf := rfl
@[simp] theorem State.startBlock_cnt (s : State) (f : Bool) : (s.startBlock f).cnt = s.cnt := rfl
@[simp] theorem State.startBlock_dv (s : State) (f : Bool) : (s.startBlock f).dv = s.dv := rfl
@[simp] theorem State.startBlock_err (s : State) (f : Bool) : (s.startBlock f).err = s.err := rfl
@[simp] theorem State.startBlock_uop (s : State) (f : Bool) : (s.startBlock f).uop = .xorin := rfl
@[simp] theorem State.startBlock_rnd (s : State) (f : Bool) : (s.startBlock f).rnd = s.rnd := rfl
@[simp] theorem State.startBlock_fin (s : State) (f : Bool) : (s.startBlock f).fin = f := rfl
@[simp] theorem State.startBlock_latch (s : State) (f : Bool) : (s.startBlock f).latch = s.latch := rfl
@[simp] theorem State.startBlock_host (s : State) (f : Bool) : (s.startBlock f).host = s.host := rfl
@[simp] theorem State.startBlock_rsp (s : State) (f : Bool) : (s.startBlock f).rsp = s.rsp := rfl

/-! ### finalStep -/

@[simp] theorem State.finalStep_lanes (s : State) : s.finalStep.lanes = s.lanes := rfl
@[simp] theorem State.finalStep_buf (s : State) : s.finalStep.buf = padBlock s.buf s.cnt.toNat := rfl
@[simp] theorem State.finalStep_cnt (s : State) : s.finalStep.cnt = s.cnt := rfl
@[simp] theorem State.finalStep_dv (s : State) : s.finalStep.dv = s.dv := rfl
@[simp] theorem State.finalStep_err (s : State) : s.finalStep.err = s.err := rfl
@[simp] theorem State.finalStep_uop (s : State) : s.finalStep.uop = .xorin := rfl
@[simp] theorem State.finalStep_rnd (s : State) : s.finalStep.rnd = s.rnd := rfl
@[simp] theorem State.finalStep_fin (s : State) : s.finalStep.fin = true := rfl
@[simp] theorem State.finalStep_latch (s : State) : s.finalStep.latch = some (respond 0 0) := rfl
@[simp] theorem State.finalStep_host (s : State) : s.finalStep.host = s.host := rfl
@[simp] theorem State.finalStep_rsp (s : State) : s.finalStep.rsp = s.rsp := rfl

/-! ### clearContext -/

@[simp] theorem State.clearContext_lanes (s : State) : s.clearContext.lanes = Vector.replicate 25 0 := rfl
@[simp] theorem State.clearContext_buf (s : State) : s.clearContext.buf = [] := rfl
@[simp] theorem State.clearContext_cnt (s : State) : s.clearContext.cnt = 0 := rfl
@[simp] theorem State.clearContext_dv (s : State) : s.clearContext.dv = false := rfl
@[simp] theorem State.clearContext_err (s : State) : s.clearContext.err = 0 := rfl
@[simp] theorem State.clearContext_uop (s : State) : s.clearContext.uop = s.uop := rfl
@[simp] theorem State.clearContext_rnd (s : State) : s.clearContext.rnd = s.rnd := rfl
@[simp] theorem State.clearContext_fin (s : State) : s.clearContext.fin = s.fin := rfl
@[simp] theorem State.clearContext_latch (s : State) : s.clearContext.latch = s.latch := rfl
@[simp] theorem State.clearContext_host (s : State) : s.clearContext.host = s.host := rfl
@[simp] theorem State.clearContext_rsp (s : State) : s.clearContext.rsp = s.rsp := rfl

/-! ### absorbBlock -/

@[simp] theorem State.absorbBlock_lanes (s : State) : s.absorbBlock.lanes = keccakF (xorIn s.lanes s.buf.read) := rfl
@[simp] theorem State.absorbBlock_buf (s : State) : s.absorbBlock.buf = [] := rfl
@[simp] theorem State.absorbBlock_cnt (s : State) : s.absorbBlock.cnt = 0 := rfl
@[simp] theorem State.absorbBlock_dv (s : State) : s.absorbBlock.dv = s.dv := rfl
@[simp] theorem State.absorbBlock_err (s : State) : s.absorbBlock.err = s.err := rfl
@[simp] theorem State.absorbBlock_uop (s : State) : s.absorbBlock.uop = s.uop := rfl
@[simp] theorem State.absorbBlock_rnd (s : State) : s.absorbBlock.rnd = s.rnd := rfl
@[simp] theorem State.absorbBlock_fin (s : State) : s.absorbBlock.fin = s.fin := rfl
@[simp] theorem State.absorbBlock_latch (s : State) : s.absorbBlock.latch = s.latch := rfl
@[simp] theorem State.absorbBlock_host (s : State) : s.absorbBlock.host = s.host := rfl
@[simp] theorem State.absorbBlock_rsp (s : State) : s.absorbBlock.rsp = s.rsp := rfl

/-! ### absorbStep -/

/-- An accepted `ABSORB` that does not fill the buffer only appends. -/
theorem State.absorbStep_of_ne {b : Byte} {s : State} (h : s.cnt + 1 ≠ 136) :
    s.absorbStep b = (s.append b).answer 0 := if_neg h

/-- An accepted `ABSORB` that fills the buffer appends and starts the micro-program. -/
theorem State.absorbStep_of_eq {b : Byte} {s : State} (h : s.cnt + 1 = 136) :
    s.absorbStep b = ((s.append b).answer 0).startBlock false := if_pos h

@[simp] theorem State.absorbStep_lanes (b : Byte) (s : State) : (s.absorbStep b).lanes = s.lanes := by
  unfold State.absorbStep; dsimp only; split <;> rfl
@[simp] theorem State.absorbStep_buf (b : Byte) (s : State) : (s.absorbStep b).buf = s.buf.write s.cnt.toNat b := by
  unfold State.absorbStep; dsimp only; split <;> rfl
@[simp] theorem State.absorbStep_cnt (b : Byte) (s : State) : (s.absorbStep b).cnt = s.cnt + 1 := by
  unfold State.absorbStep; dsimp only; split <;> rfl
@[simp] theorem State.absorbStep_dv (b : Byte) (s : State) : (s.absorbStep b).dv = s.dv := by
  unfold State.absorbStep; dsimp only; split <;> rfl
@[simp] theorem State.absorbStep_err (b : Byte) (s : State) : (s.absorbStep b).err = s.err := by
  unfold State.absorbStep; dsimp only; split <;> rfl
@[simp] theorem State.absorbStep_rnd (b : Byte) (s : State) : (s.absorbStep b).rnd = s.rnd := by
  unfold State.absorbStep; dsimp only; split <;> rfl
@[simp] theorem State.absorbStep_latch (b : Byte) (s : State) : (s.absorbStep b).latch = some (respond 0 0) := by
  unfold State.absorbStep; dsimp only; split <;> rfl
@[simp] theorem State.absorbStep_host (b : Byte) (s : State) : (s.absorbStep b).host = s.host := by
  unfold State.absorbStep; dsimp only; split <;> rfl
@[simp] theorem State.absorbStep_rsp (b : Byte) (s : State) : (s.absorbStep b).rsp = s.rsp := by
  unfold State.absorbStep; dsimp only; split <;> rfl

end Sys2Proof.Machine
end

