-- ==== Sys2Proof/Laws/Step.lean ====
section
/-!
SUPPORT. What each shared operation can do, said once: the dispatch of a word, `IDLE`, the end of a step,
and the step itself.
-/

namespace Sys2Proof.Machine

/-! ## The meanings that answer in one way -/

@[simp] theorem exec_theta (s : State) : exec .theta s = .next s.thetaStep := rfl
@[simp] theorem exec_rho (s : State) : exec .rho s = .next s.rhoStep := rfl
@[simp] theorem exec_pi (s : State) : exec .pi s = .next s.piStep := rfl
@[simp] theorem exec_chi (s : State) : exec .chi s = .next s.chiStep := rfl
@[simp] theorem exec_iota (s : State) : exec .iota s = .next s.iotaStep := rfl
@[simp] theorem exec_xorin (s : State) : exec .xorin s = .next s.xorinStep := rfl
@[simp] theorem exec_bufclr (s : State) : exec .bufclr s = .next s.bufclrStep := rfl
@[simp] theorem exec_setdv (s : State) : exec .setdv s = .next s.setdvStep := rfl
@[simp] theorem exec_round (r : Fin 24) (s : State) : exec (.round r) s = .next (s.roundStep r) := rfl
@[simp] theorem exec_permute (s : State) : exec .permute s = .next s.permuteStep := rfl
@[simp] theorem exec_init (s : State) : exec .init s = .next (s.clearContext.answer 0) := rfl
@[simp] theorem exec_idle (s : State) : exec .idle s = execIdle s := rfl

/-! ## The meanings that check the phase, the range or the count -/

/-- The operand of `RDDIG` is out of range. -/
theorem digestIndex_eq_none {i : Byte} : digestIndex i = none ↔ 32 ≤ i.toNat := by
  unfold digestIndex
  split <;> simp <;> omega

/-- The operand of `RDDIG` is in range. -/
theorem digestIndex_eq_some {i : Byte} (h : i.toNat < 32) : digestIndex i = some ⟨i.toNat, h⟩ :=
  dif_pos h

/-- The operand of `RDCR` is out of range. -/
theorem controlNumber_eq_none {n : Byte} : controlNumber n = none ↔ 2 ≤ n.toNat := by
  unfold controlNumber
  split <;> simp <;> omega

/-- The operand of `RDCR` is in range. -/
theorem controlNumber_eq_some {n : Byte} (h : n.toNat < 2) : controlNumber n = some ⟨n.toNat, h⟩ :=
  dif_pos h

theorem execAbsorb_done {s : State} (h : s.dv = true) (b : Byte) :
    execAbsorb b s = .next (s.reject .seq) := if_pos h

theorem execAbsorb_accept {s : State} (h : s.dv = false) (hc : s.cnt.toNat < 136) (b : Byte) :
    execAbsorb b s = .next (s.absorbStep b) := by
  rw [execAbsorb, if_neg (by rw [h]; decide), if_pos hc]

theorem execAbsorb_beyond {s : State} (h : s.dv = false) (hc : 136 ≤ s.cnt.toNat) (b : Byte) :
    execAbsorb b s = .fault .bufferAddress := by
  rw [execAbsorb, if_neg (by rw [h]; decide), if_neg (Nat.not_lt.2 hc)]

theorem execFinal_done {s : State} (h : s.dv = true) : execFinal s = .next (s.reject .seq) := if_pos h

theorem execFinal_accept {s : State} (h : s.dv = false) (hc : s.cnt.toNat < 136) :
    execFinal s = .next s.finalStep := by
  rw [execFinal, if_neg (by rw [h]; decide), if_pos hc]

theorem execFinal_beyond {s : State} (h : s.dv = false) (hc : 136 ≤ s.cnt.toNat) :
    execFinal s = .fault .bufferAddress := by
  rw [execFinal, if_neg (by rw [h]; decide), if_neg (Nat.not_lt.2 hc)]

theorem execRddig_range {i : Byte} (h : 32 ≤ i.toNat) (s : State) :
    execRddig i s = .next (s.reject .range) := by
  rw [execRddig, digestIndex_eq_none.2 h]

theorem execRddig_early {i : Byte} (h : i.toNat < 32) {s : State} (hd : s.dv = false) :
    execRddig i s = .next (s.reject .seq) := by
  rw [execRddig, digestIndex_eq_some h]
  exact if_neg (by rw [hd]; decide)

theorem execRddig_accept {i : Byte} (h : i.toNat < 32) {s : State} (hd : s.dv = true) :
    execRddig i s = .next (s.answer (digestByte s.lanes ⟨i.toNat, h⟩)) := by
  rw [execRddig, digestIndex_eq_some h]
  exact if_pos hd

theorem execRdcr_range {n : Byte} (h : 2 ≤ n.toNat) (s : State) :
    execRdcr n s = .next (s.reject .range) := by
  rw [execRdcr, controlNumber_eq_none.2 h]

theorem execRdcr_accept {n : Byte} (h : n.toNat < 2) (s : State) :
    execRdcr n s = .next (s.answer (controlRegister s ⟨n.toNat, h⟩)) := by
  rw [execRdcr, controlNumber_eq_some h]

/-- Everything `ABSORB b` can do. -/
theorem execAbsorb_cases (b : Byte) (s : State) :
    (s.dv = true ∧ execAbsorb b s = .next (s.reject .seq)) ∨
    (s.dv = false ∧ s.cnt.toNat < 136 ∧ execAbsorb b s = .next (s.absorbStep b)) ∨
    (s.dv = false ∧ 136 ≤ s.cnt.toNat ∧ execAbsorb b s = .fault .bufferAddress) := by
  cases hd : s.dv
  · rcases Nat.lt_or_ge s.cnt.toNat 136 with hc | hc
    · exact Or.inr (Or.inl ⟨rfl, hc, execAbsorb_accept hd hc b⟩)
    · exact Or.inr (Or.inr ⟨rfl, hc, execAbsorb_beyond hd hc b⟩)
  · exact Or.inl ⟨rfl, execAbsorb_done hd b⟩

/-- Everything `FINAL` can do. -/
theorem execFinal_cases (s : State) :
    (s.dv = true ∧ execFinal s = .next (s.reject .seq)) ∨
    (s.dv = false ∧ s.cnt.toNat < 136 ∧ execFinal s = .next s.finalStep) ∨
    (s.dv = false ∧ 136 ≤ s.cnt.toNat ∧ execFinal s = .fault .bufferAddress) := by
  cases hd : s.dv
  · rcases Nat.lt_or_ge s.cnt.toNat 136 with hc | hc
    · exact Or.inr (Or.inl ⟨rfl, hc, execFinal_accept hd hc⟩)
    · exact Or.inr (Or.inr ⟨rfl, hc, execFinal_beyond hd hc⟩)
  · exact Or.inl ⟨rfl, execFinal_done hd⟩

/-- Everything `RDDIG i` can do. -/
theorem execRddig_cases (i : Byte) (s : State) :
    (32 ≤ i.toNat ∧ execRddig i s = .next (s.reject .range)) ∨
    (∃ h : i.toNat < 32, s.dv = true ∧
      execRddig i s = .next (s.answer (digestByte s.lanes ⟨i.toNat, h⟩))) ∨
    (i.toNat < 32 ∧ s.dv = false ∧ execRddig i s = .next (s.reject .seq)) := by
  rcases Nat.lt_or_ge i.toNat 32 with h | h
  · right
    cases hd : s.dv
    · exact Or.inr ⟨h, rfl, execRddig_early h hd⟩
    · exact Or.inl ⟨h, rfl, execRddig_accept h hd⟩
  · exact Or.inl ⟨h, execRddig_range h s⟩

/-- Everything `RDCR n` can do. -/
theorem execRdcr_cases (n : Byte) (s : State) :
    (2 ≤ n.toNat ∧ execRdcr n s = .next (s.reject .range)) ∨
    (∃ h : n.toNat < 2, execRdcr n s = .next (s.answer (controlRegister s ⟨n.toNat, h⟩))) := by
  rcases Nat.lt_or_ge n.toNat 2 with h | h
  · exact Or.inr ⟨h, execRdcr_accept h s⟩
  · exact Or.inl ⟨h, execRdcr_range h s⟩

/-- The dispatch of a word that names a command is the command's own meaning. -/
theorem dispatch_ok {w : CommandWord} {c : Command} (h : decodeCommand w = .ok c) (s : State) :
    dispatch w s = exec c.instr s := by
  rw [dispatch, h]
  cases c <;> rfl

/-- The dispatch of a word that names no command is its rejection. -/
theorem dispatch_error {w : CommandWord} {e : IllegalWord} (h : decodeCommand w = .error e)
    (s : State) : dispatch w s = .next (s.reject .illegal) := by
  rw [dispatch, h]

/-- Everything the dispatch of a word can do: a rejection, or one of the five commands accepted, or a
fault on a count that no run reaches. -/
theorem dispatch_cases (w : CommandWord) (s : State) :
    (∃ c, dispatch w s = .next (s.reject c)) ∨
    (decodeCommand w = .ok .init ∧ dispatch w s = .next (s.clearContext.answer 0)) ∨
    (∃ b, decodeCommand w = .ok (.absorb b) ∧ s.dv = false ∧ s.cnt.toNat < 136 ∧
      dispatch w s = .next (s.absorbStep b)) ∨
    (decodeCommand w = .ok .final ∧ s.dv = false ∧ s.cnt.toNat < 136 ∧
      dispatch w s = .next s.finalStep) ∨
    (∃ d, dispatch w s = .next (s.answer d)) ∨
    (136 ≤ s.cnt.toNat ∧ dispatch w s = .fault .bufferAddress) := by
  unfold dispatch
  rcases hw : decodeCommand w with e | c
  · exact Or.inl ⟨_, rfl⟩
  · cases c with
    | init => exact Or.inr (Or.inl ⟨rfl, rfl⟩)
    | absorb b =>
      rcases execAbsorb_cases b s with ⟨-, h⟩ | ⟨h1, h2, h⟩ | ⟨-, h2, h⟩
      · exact Or.inl ⟨_, h⟩
      · exact Or.inr (Or.inr (Or.inl ⟨b, rfl, h1, h2, h⟩))
      · exact Or.inr (Or.inr (Or.inr (Or.inr (Or.inr ⟨h2, h⟩))))
    | final =>
      rcases execFinal_cases s with ⟨-, h⟩ | ⟨h1, h2, h⟩ | ⟨-, h2, h⟩
      · exact Or.inl ⟨_, h⟩
      · exact Or.inr (Or.inr (Or.inr (Or.inl ⟨rfl, h1, h2, h⟩)))
      · exact Or.inr (Or.inr (Or.inr (Or.inr (Or.inr ⟨h2, h⟩))))
    | rddig i =>
      rcases execRddig_cases i s with ⟨-, h⟩ | ⟨_, -, h⟩ | ⟨-, -, h⟩
      · exact Or.inl ⟨_, h⟩
      · exact Or.inr (Or.inr (Or.inr (Or.inr (Or.inl ⟨_, h⟩))))
      · exact Or.inl ⟨_, h⟩
    | rdcr n =>
      rcases execRdcr_cases n s with ⟨-, h⟩ | ⟨_, h⟩
      · exact Or.inl ⟨_, h⟩
      · exact Or.inr (Or.inr (Or.inr (Or.inr (Or.inl ⟨_, h⟩))))

/-- Everything `IDLE` can do: deliver, accept and dispatch, or wait. -/
theorem execIdle_cases (s : State) :
    (∃ r, s.latch = some r ∧ execIdle s = .next s.deliver) ∨
    (∃ w rest, s.latch = none ∧ s.host = .present w :: rest ∧
      execIdle s = dispatch w { s with host := rest }) ∨
    (s.latch = none ∧ (∀ w rest, s.host ≠ .present w :: rest) ∧ execIdle s = .next s) := by
  unfold execIdle
  rcases hl : s.latch with _ | r
  · right
    rcases hh : s.host with _ | ⟨m, rest⟩
    · right; simp
    · cases m with
      | present w => left; exact ⟨w, rest, by simp⟩
      | pause => right; simp
      | reset => right; simp
  · left; exact ⟨r, by simp⟩

/-! ## The end of a step and the step -/

@[simp] theorem endMove_next (s t : State) :
    endMove s (.next t) = .next (if s.pausing then t.dropMove else t) := by
  unfold endMove
  split <;> rfl

/-- The host's next move decides the reset and the pause. -/
theorem host_move_cases (s : State) :
    (s.resetAsserted = true ∧ s.pausing = false ∧ ∃ rest, s.host = .reset :: rest) ∨
    (s.resetAsserted = false ∧ s.pausing = true ∧ ∃ rest, s.host = .pause :: rest) ∨
    (s.resetAsserted = false ∧ s.pausing = false ∧ ∃ w rest, s.host = .present w :: rest) ∨
    (s.resetAsserted = false ∧ s.pausing = false ∧ s.host = []) := by
  unfold State.resetAsserted State.pausing
  rcases s.host with _ | ⟨m, rest⟩
  · simp
  · cases m <;> simp

/-- A step in which the host asserts reset. -/
theorem step_reset {s : State} (h : s.resetAsserted = true) : step s = .next s.takeReset := by
  simp [step, h]

/-- A step in which the host does not assert reset. -/
theorem step_run {s : State} (h : s.resetAsserted = false) :
    step s = endMove s (exec s.uop.instr s) := by
  simp [step, h]

/-- A step with a command word accepted is the dispatch of the word. -/
theorem step_ready {s : State} {w : CommandWord} {rest : List HostMove} (h : s.ReadyFor w rest) :
    step s = dispatch w { s with host := rest } := by
  obtain ⟨hu, hl, hh⟩ := h
  have h1 : s.resetAsserted = false := by simp [State.resetAsserted, hh]
  have h2 : s.pausing = false := by simp [State.pausing, hh]
  simp [step, h1, endMove, h2, hu, Uop.instr, execIdle, hl, hh]

/-- A run that begins with a step to a next state. -/
theorem steps_succ {k : Nat} {s t : State} (h : step s = .next t) : steps (k + 1) s = steps k t := by
  rw [steps, h]

/-- A run that begins with a fault. -/
theorem steps_fault {k : Nat} {s : State} {r : Fault} (h : step s = .fault r) :
    steps (k + 1) s = .fault r := by
  rw [steps, h]

/-- A run that begins with a refusal. -/
theorem steps_refused {k : Nat} {s : State} {r : Refusal} (h : step s = .refused r) :
    steps (k + 1) s = .refused r := by
  rw [steps, h]

/-- The steps of the machine are the run of the host's interface. -/
theorem steps_eq_run (k : Nat) (s : Sys2Proof.core.State) :
    Host.Core.run Sys2Proof.core k s = steps k s := by
  induction k generalizing s with
  | zero => rfl
  | succ k ih =>
    rw [Host.Core.run]
    cases hs : Sys2Proof.core.step s with
    | next t => exact (ih t).trans (steps_succ hs).symm
    | fault r => exact (steps_fault hs).symm
    | refused r => exact (steps_refused hs).symm

/-- A run cut in two. -/
theorem steps_add {j : Nat} (k : Nat) {s t : State} (h : steps j s = .next t) :
    steps (j + k) s = steps k t := by
  induction j generalizing s with
  | zero => cases h; rw [Nat.zero_add]
  | succ j ih =>
    rw [Nat.add_right_comm]
    rw [steps] at h ⊢
    cases hs : step s with
    | next u => rw [hs] at h; exact ih h
    | fault r => rw [hs] at h; cases h
    | refused r => rw [hs] at h; cases h

/-! ## The host while a command runs -/

@[simp] theorem dropPauses_zero (moves : List HostMove) : dropPauses 0 moves = moves := by
  cases moves <;> rfl

@[simp] theorem dropPauses_nil (n : Nat) : dropPauses n [] = [] := by cases n <;> rfl

@[simp] theorem dropPauses_present (n : Nat) (w : CommandWord) (rest : List HostMove) :
    dropPauses n (.present w :: rest) = .present w :: rest := by cases n <;> rfl

@[simp] theorem dropPauses_pause (n : Nat) (rest : List HostMove) :
    dropPauses (n + 1) (.pause :: rest) = dropPauses n rest := rfl

@[simp] theorem dropPauses_reset (n : Nat) (rest : List HostMove) :
    dropPauses n (.reset :: rest) = .reset :: rest := by cases n <;> rfl

/-- The moves after m steps and then n more. -/
theorem dropPauses_add (m n : Nat) (moves : List HostMove) :
    dropPauses (m + n) moves = dropPauses n (dropPauses m moves) := by
  induction m generalizing moves with
  | zero => simp
  | succ m ih =>
    rw [Nat.add_right_comm]
    rcases moves with _ | ⟨_ | _ | _, rest⟩ <;> simp [ih]

/-- A host without a reset stays without one. -/
theorem reset_notMem_dropPauses {moves : List HostMove} (h : HostMove.reset ∉ moves) (n : Nat) :
    HostMove.reset ∉ dropPauses n moves := by
  induction n generalizing moves with
  | zero => simpa using h
  | succ n ih =>
    rcases moves with _ | ⟨_ | _ | _, rest⟩
    · simp
    · simpa using h
    · exact ih (List.not_mem_of_not_mem_cons h)
    · simp at h

/-- `cmd_ready`, said once (rules R70, R210). -/
theorem cmdReady_iff {s : State} :
    s.cmdReady = true ↔ s.uop = .idle ∧ s.latch = none ∧ s.resetAsserted = false := by
  simp [State.cmdReady, and_assoc]

/-- A step of a busy core, with a host that asserts no reset, is the instruction of `SEQ.uop`, which leaves
the host's moves alone; a pause is over after it. -/
theorem step_busy {s t : State} (hm : HostMove.reset ∉ s.host) (he : exec s.uop.instr s = .next t)
    (hh : t.host = s.host) : step s = .next { t with host := dropPauses 1 s.host } := by
  rcases host_move_cases s with ⟨-, -, rest, h⟩ | ⟨h1, h2, rest, h⟩ | ⟨h1, h2, w, rest, h⟩ | ⟨h1, h2, h⟩
  · simp [h] at hm
  all_goals
    obtain ⟨l, b, cn, dv, er, u, r, f, la, ho, rs⟩ := t
    dsimp only at hh
    subst hh
    rw [step_run h1, he, endMove_next]
    simp [h2, h, State.dropMove]

/-- `SEQ.uop` and its code name the same instruction. -/
theorem decodeUop_code (u : Uop) : decodeUop u.code = some u.instr := by
  cases u <;> rfl

/-- Everything a step can do, with the host: reset, the dispatch of a word, a wait or a delivery at `IDLE`,
or a micro-operation. -/
theorem step_cases {s t : State} (h : step s = .next t) :
    (s.resetAsserted = true ∧ t = s.takeReset) ∨
    (s.resetAsserted = false ∧ ∃ w rest, s.ReadyFor w rest ∧
      dispatch w { s with host := rest } = .next t) ∨
    (s.resetAsserted = false ∧ s.uop = .idle ∧
      ∃ t', (t' = s ∨ t' = s.deliver) ∧ (t = t' ∨ t = t'.dropMove)) ∨
    (s.resetAsserted = false ∧ s.uop ≠ .idle ∧
      ∃ t', exec s.uop.instr s = .next t' ∧ (t = t' ∨ t = t'.dropMove)) := by
  cases hr : s.resetAsserted
  case true => rw [step_reset hr] at h; cases h; exact Or.inl ⟨rfl, rfl⟩
  case false =>
  right
  have key : ∀ t', exec s.uop.instr s = .next t' → t = t' ∨ t = t'.dropMove := by
    intro t' ht
    rw [step_run hr, ht, endMove_next] at h
    cases h
    cases s.pausing <;> simp
  by_cases hu : s.uop = .idle
  · have he : exec s.uop.instr s = execIdle s := by rw [hu]; rfl
    rcases execIdle_cases s with ⟨r, hl, hx⟩ | ⟨w, rest, hl, hh, -⟩ | ⟨hl, hh, hx⟩
    · exact Or.inr (Or.inl ⟨rfl, hu, _, Or.inr rfl, key _ (he.trans hx)⟩)
    · exact Or.inl ⟨rfl, w, rest, ⟨hu, hl, hh⟩, (step_ready ⟨hu, hl, hh⟩).symm.trans h⟩
    · exact Or.inr (Or.inl ⟨rfl, hu, _, Or.inl rfl, key _ (he.trans hx)⟩)
  · right; right
    refine ⟨rfl, hu, ?_⟩
    rw [step_run hr] at h
    cases hx : exec s.uop.instr s with
    | next t' => exact ⟨t', rfl, key _ hx⟩
    | fault r => rw [hx] at h; unfold endMove mapNext at h; split at h <;> cases h
    | refused r => rw [hx] at h; unfold endMove mapNext at h; split at h <;> cases h

end Sys2Proof.Machine
end

