-- ==== Sys2Proof/Laws/Command.lean ====
section
/-!
SUPPORT. The command level: how `decodeInPhase` follows from the decoding of the word, what `Exec` gives for
each outcome of it, and the lanes of a message one block at a time. `absorbedLanes` is compared through
these two equations, never by unfolding: the kernel would evaluate `keccakF`.
-/

namespace Sys2Proof.Machine

/-- Rule R76 in terms of the decoding of the word alone. -/
theorem decodeInPhase_eq (w : CommandWord) (dv : Bool) :
    decodeInPhase w dv =
      match decodeCommand w with
      | .error _ => .error .illegal
      | .ok .init => .ok .init
      | .ok (.absorb b) => if dv then .error .seq else .ok (.absorb b)
      | .ok .final => if dv then .error .seq else .ok .final
      | .ok (.rddig i) =>
        if h : i.toNat < 32 then (if dv then .ok (.rddig ⟨i.toNat, h⟩) else .error .seq) else .error .range
      | .ok (.rdcr n) => if h : n.toNat < 2 then .ok (.rdcr ⟨n.toNat, h⟩) else .error .range := by
  have hop : ∀ op : BitVec 4, ¬(op = 0 ∨ 5 < op.toNat) → op = 1 ∨ op = 2 ∨ op = 3 ∨ op = 4 ∨ op = 5 := by
    decide
  unfold decodeInPhase decodeCommand
  by_cases h0 : opField w = 0 ∨ 5 < (opField w).toNat
  · rw [if_pos h0, if_pos]
    rintro (h | h | h | h | h) <;> rw [h] at h0 <;> revert h0 <;> decide
  rw [if_neg h0, if_neg (not_not.2 (hop _ h0))]
  by_cases h1 : rsvField w = 0
  · rw [if_neg (not_not.2 h1), if_neg (not_not.2 h1)]
    by_cases h2 : (opField w = 1 ∨ opField w = 3) ∧ immField w ≠ 0
    · rw [if_pos h2, if_pos h2]
    · rw [if_neg h2, if_neg h2]
      rcases hop _ h0 with h | h | h | h | h <;> simp only [h] <;> simp
      · by_cases hi : (immField w).toNat < 32
        · simp only [digestIndex_eq_some hi]; rw [dif_pos (by omega)]
        · simp only [digestIndex_eq_none.2 (Nat.not_lt.1 hi)]; rw [dif_neg (by omega)]
      · by_cases hi : (immField w).toNat < 2
        · simp only [controlNumber_eq_some hi]; rw [dif_pos (by omega)]
        · simp only [controlNumber_eq_none.2 (Nat.not_lt.1 hi)]; rw [dif_neg (by omega)]
  · rw [if_pos h1, if_pos h1]

/-- A rejected word. -/
theorem commandExec_reject {w : CommandWord} {s : State} {c} (h : decodeInPhase w s.dv = .error c) :
    commandExec w s = (s.recordCause c, respond c.code 0) ∧ sequencerSteps w s = 0 := by
  simp [commandExec, sequencerSteps, h]

/-- An accepted `INIT`. -/
theorem commandExec_init {w : CommandWord} {s : State} (h : decodeInPhase w s.dv = .ok .init) :
    commandExec w s = (s.clearContext, respond 0 0) ∧ sequencerSteps w s = 0 := by
  simp [commandExec, sequencerSteps, h]

/-- An accepted `ABSORB`. -/
theorem commandExec_absorb {w : CommandWord} {s : State} {b} (h : decodeInPhase w s.dv = .ok (.absorb b)) :
    commandExec w s =
        (if (s.append b).cnt = 136 then (s.append b).absorbBlock else s.append b, respond 0 0) ∧
      sequencerSteps w s = if s.cnt = 135 then 122 else 0 := by
  simp [commandExec, sequencerSteps, h]

/-- An accepted `FINAL`. -/
theorem commandExec_final {w : CommandWord} {s : State} (h : decodeInPhase w s.dv = .ok .final) :
    commandExec w s = ({ s.padBlk.absorbBlock with dv := true }, respond 0 0) ∧ sequencerSteps w s = 123 := by
  simp [commandExec, sequencerSteps, h]

/-- An accepted `RDDIG`. -/
theorem commandExec_rddig {w : CommandWord} {s : State} {i} (h : decodeInPhase w s.dv = .ok (.rddig i)) :
    commandExec w s = (s, respond 0 (digestByte s.lanes i)) ∧ sequencerSteps w s = 0 := by
  simp [commandExec, sequencerSteps, h]

/-- An accepted `RDCR`. -/
theorem commandExec_rdcr {w : CommandWord} {s : State} {i} (h : decodeInPhase w s.dv = .ok (.rdcr i)) :
    commandExec w s = (s, respond 0 (controlRegister s i)) ∧ sequencerSteps w s = 0 := by
  simp [commandExec, sequencerSteps, h]

/-- No block absorbed. -/
theorem absorbedLanes_zero (p : List Byte) : absorbedLanes p 0 = Vector.replicate 25 0 := rfl

/-- One more block absorbed. -/
theorem absorbedLanes_succ (p : List Byte) (q : Nat) :
    absorbedLanes p (q + 1) = keccakF (xorIn (absorbedLanes p q) (messageByte p q)) := by
  unfold absorbedLanes; rw [List.range_succ, List.foldl_append]; rfl

end Sys2Proof.Machine
end

