-- ==== Sys2Proof/Laws/Encoding.lean ====
section
/-!
SUPPORT. The fields of a command word: of a word made from the opcode map, and by the word's value.
-/

namespace Sys2Proof

@[simp] theorem opField_commandWord (op : BitVec 4) (imm : Byte) :
    opField (commandWord op imm) = op := by
  apply BitVec.eq_of_getElem_eq
  intro k hk
  simp only [opField, commandWord, BitVec.getElem_extractLsb', BitVec.getLsbD_append]
  rw [if_neg (by omega), if_neg (by omega), ← BitVec.getLsbD_eq_getElem]
  congr 1
  omega

@[simp] theorem rsvField_commandWord (op : BitVec 4) (imm : Byte) :
    rsvField (commandWord op imm) = 0 := by
  apply BitVec.eq_of_getElem_eq
  intro k hk
  simp only [rsvField, commandWord, BitVec.getElem_extractLsb', BitVec.getLsbD_append]
  rw [if_neg (by omega), if_pos (by omega)]
  simp

@[simp] theorem immField_commandWord (op : BitVec 4) (imm : Byte) :
    immField (commandWord op imm) = imm := by
  apply BitVec.eq_of_getElem_eq
  intro k hk
  simp only [immField, commandWord, BitVec.getElem_extractLsb', BitVec.getLsbD_append]
  rw [if_pos (by omega), ← BitVec.getLsbD_eq_getElem]
  congr 1
  omega

theorem opField_toNat (w : CommandWord) : (opField w).toNat = w.toNat / 4096 := by
  have := w.isLt
  simp only [opField, BitVec.extractLsb'_toNat, Nat.shiftRight_eq_div_pow]
  omega

theorem rsvField_toNat (w : CommandWord) : (rsvField w).toNat = w.toNat / 256 % 16 := by
  simp only [rsvField, BitVec.extractLsb'_toNat, Nat.shiftRight_eq_div_pow]

theorem immField_toNat (w : CommandWord) : (immField w).toNat = w.toNat % 256 := by
  simp only [immField, BitVec.extractLsb'_toNat, Nat.shiftRight_eq_div_pow]
  omega

/-- The value of a word made from the opcode map (rule R73). -/
theorem commandWord_toNat (op : BitVec 4) (imm : Byte) :
    (commandWord op imm).toNat = 4096 * op.toNat + imm.toNat := by
  have h1 := opField_toNat (commandWord op imm)
  have h2 := rsvField_toNat (commandWord op imm)
  have h3 := immField_toNat (commandWord op imm)
  rw [opField_commandWord] at h1
  rw [rsvField_commandWord] at h2
  rw [immField_commandWord] at h3
  simp only [BitVec.ofNat_eq_ofNat, BitVec.toNat_ofNat] at h2
  omega

/-- A word with `rsv` = 0 is made of its `op` and its `imm`. -/
theorem commandWord_fields {w : CommandWord} (h : rsvField w = 0) :
    commandWord (opField w) (immField w) = w := by
  apply BitVec.eq_of_toNat_eq
  have h2 := congrArg BitVec.toNat h
  rw [rsvField_toNat] at h2
  simp only [BitVec.ofNat_eq_ofNat, BitVec.toNat_ofNat] at h2
  rw [commandWord_toNat, opField_toNat, immField_toNat]
  omega

end Sys2Proof
end

