-- ==== Sys2Proof/Laws/Lanes.lean ====
section
/-!
SUPPORT. The laws of the lane array: reading a lane of an array given lane by lane, equality lane by
lane, and the lanes of each step mapping.
-/

namespace Sys2Proof.Machine

/-- A lane of an array given lane by lane. -/
@[simp] theorem lane_ofLanes (f : Fin 5 → Fin 5 → Lane) (x y : Fin 5) : lane (ofLanes f) x y = f x y := by
  simp only [lane, ofLanes, Vector.getElem_ofFn]
  congr 1 <;> apply Fin.ext <;> simp only <;> omega

/-- Two arrays with the same lanes are equal. -/
theorem lanes_ext {a b : Lanes} (h : ∀ x y, lane a x y = lane b x y) : a = b := by
  apply Vector.ext
  intro i hi
  have := h ⟨i % 5, by omega⟩ ⟨i / 5, by omega⟩
  simpa only [lane, Nat.mod_add_div] using this

theorem getElem_eq_lane (a : Lanes) (i : Nat) (hi : i < 25) :
    a[i] = lane a ⟨i % 5, by omega⟩ ⟨i / 5, by omega⟩ := by
  simp only [lane, Nat.mod_add_div]

@[simp] theorem lane_theta (a : Lanes) (x y : Fin 5) :
    lane (theta a) x y = lane a x y ^^^ thetaMask a x := by
  unfold theta
  exact lane_ofLanes ..

@[simp] theorem getElem_rho (a : Lanes) (i : Nat) (hi : i < 25) :
    (rho a)[i] = rotl64 a[i] rotationOffsets[i] := by
  simp [rho]

@[simp] theorem lane_pi (a : Lanes) (x y : Fin 5) : lane (pi a) x y = lane a (x + 3 * y) x := by
  unfold pi
  exact lane_ofLanes ..

@[simp] theorem lane_chi (a : Lanes) (x y : Fin 5) :
    lane (chi a) x y = lane a x y ^^^ (~~~(lane a (x + 1) y) &&& lane a (x + 2) y) := by
  unfold chi
  exact lane_ofLanes ..

@[simp] theorem getElem_iota_zero (a : Lanes) (r : Fin 24) :
    (iota a r)[0] = a[0] ^^^ roundConstants[r] := by
  simp [iota]

theorem getElem_iota_of_ne (a : Lanes) (r : Fin 24) (i : Nat) (hi : i < 25) (h : i ≠ 0) :
    (iota a r)[i] = a[i] := by
  simp [iota, Vector.getElem_set_ne, Ne.symm h]

/-- One more turn of a loop over the rounds. -/
theorem turns_succ {β : Type} (f : β → Fin 24 → β) (x : β) {n : Nat} (h : n < 24) :
    turns f x (n + 1) = f (turns f x n) ⟨n, h⟩ := by
  rw [turns, dif_pos h]

/-- Every rotation offset is in 0..63 (rule R98). -/
theorem rotationOffsets_lt_fin : ∀ j : Fin 25, rotationOffsets[j] < 64 := by decide

theorem rotationOffsets_lt (i : Nat) (hi : i < 25) : rotationOffsets[i] < 64 :=
  rotationOffsets_lt_fin ⟨i, hi⟩

/-- A rate lane of `XorIn` takes its word of the block. -/
theorem getElem_xorIn_rate (a : Lanes) (f : Nat → Byte) (k : Nat) (hk : k < 17) :
    (xorIn a f)[k] = a[k] ^^^ blockWord f k := by
  simp [xorIn, hk]

/-- A capacity lane of `XorIn` is untouched. -/
theorem getElem_xorIn_capacity (a : Lanes) (f : Nat → Byte) (k : Nat) (hk : 17 ≤ k) (h : k < 25) :
    (xorIn a f)[k] = a[k] := by
  simp [xorIn, Nat.not_lt.2 hk]

/-- Bit `z` of a word made of eight bytes is a bit of its byte `z / 8` (rule R52). -/
theorem getLsbD_littleEndian (f : Nat → Byte) (i z : Nat) (hz : z < 64) :
    (littleEndian f i).getLsbD z = (f (i + z / 8)).getLsbD (z % 8) := by
  have hq : z / 8 = 0 ∨ z / 8 = 1 ∨ z / 8 = 2 ∨ z / 8 = 3 ∨ z / 8 = 4 ∨ z / 8 = 5 ∨ z / 8 = 6 ∨
      z / 8 = 7 := by omega
  obtain ⟨q, hq'⟩ : ∃ q, z / 8 = q := ⟨_, rfl⟩
  obtain ⟨r, hr'⟩ : ∃ r, z % 8 = r := ⟨_, rfl⟩
  have hz' : z = 8 * q + r := by omega
  have hr : r < 8 := by omega
  rw [hq', hr', hz']
  rw [hq'] at hq
  simp only [littleEndian, BitVec.getLsbD_append]
  rcases hq with rfl | rfl | rfl | rfl | rfl | rfl | rfl | rfl
  · simp [hr]
  all_goals
    repeat rw [if_neg (by omega)]
    first
      | (congr 1; omega)
      | (rw [if_pos (by omega)]; congr 1; omega)

/-- Bit `z` of an image byte is a bit of its lane (rule R51). -/
theorem getLsbD_imageByte (a : Lanes) (j : Fin 200) (z : Nat) (hz : z < 8) :
    (imageByte a j).getLsbD z = (a[j.val / 8]).getLsbD (8 * (j.val % 8) + z) := by
  simp [imageByte, hz]

/-- Image byte `j` after `XorIn`. -/
theorem imageByte_xorIn (a : Lanes) (f : Nat → Byte) (j : Fin 200) :
    imageByte (xorIn a f) j = if j.val ≤ 135 then imageByte a j ^^^ f j.val else imageByte a j := by
  apply BitVec.eq_of_getLsbD_eq
  intro z hz
  rw [getLsbD_imageByte _ _ _ hz]
  split
  · next h =>
    rw [getElem_xorIn_rate _ _ _ (by omega), BitVec.getLsbD_xor, BitVec.getLsbD_xor, getLsbD_imageByte _ _ _ hz]
    congr 1
    unfold blockWord
    rw [getLsbD_littleEndian _ _ _ (by omega)]
    congr 2
    · omega
    · omega
  · rw [getElem_xorIn_capacity _ _ _ (by omega), getLsbD_imageByte _ _ _ hz]

/-- `XorIn` reads the 136 bytes of the block and nothing else. -/
theorem xorIn_congr (a : Lanes) {f g : Nat → Byte} (h : ∀ i, i < 136 → f i = g i) :
    xorIn a f = xorIn a g := by
  apply Vector.ext
  intro k hk
  by_cases h17 : k < 17
  · rw [getElem_xorIn_rate _ _ _ h17, getElem_xorIn_rate _ _ _ h17]
    unfold blockWord littleEndian
    rw [h _ (by omega), h _ (by omega), h _ (by omega), h _ (by omega), h _ (by omega), h _ (by omega),
      h _ (by omega), h _ (by omega)]
  · rw [getElem_xorIn_capacity _ _ _ (by omega), getElem_xorIn_capacity _ _ _ (by omega)]

end Sys2Proof.Machine
end

