-- ==== Sys2Proof/Laws/PerInstr.lean ====
section
/-!
SUPPORT. Statements about every instruction as it is encoded, one lemma per constructor.
-/

namespace Sys2Proof.Laws.CodeForm

/-- An instruction's code is a command word whose reserved bits 11:8 are 0, or a sequencer code at most
8; an instruction without a code is a composite (spec/30_encoding.md rules R72, R73, R78). -/
def Statement (i : Instr) : Prop :=
  match encode i with
  | some (.command w) => rsvField w = 0
  | some (.uop c) => c.toNat ≤ 8
  | none => (∃ r, i = .round r) ∨ i = .permute

theorem init : Statement .init := rsvField_commandWord 1 0
theorem absorb (b : Byte) : Statement (.absorb b) := rsvField_commandWord 2 b
theorem final : Statement .final := rsvField_commandWord 3 0
theorem rddig (i : Byte) : Statement (.rddig i) := rsvField_commandWord 4 i
theorem rdcr (n : Byte) : Statement (.rdcr n) := rsvField_commandWord 5 n
theorem idle : Statement .idle := by simp [Statement, encode]
theorem theta : Statement .theta := by simp [Statement, encode]
theorem rho : Statement .rho := by simp [Statement, encode]
theorem pi : Statement .pi := by simp [Statement, encode]
theorem chi : Statement .chi := by simp [Statement, encode]
theorem iota : Statement .iota := by simp [Statement, encode]
theorem xorin : Statement .xorin := by simp [Statement, encode]
theorem bufclr : Statement .bufclr := by simp [Statement, encode]
theorem setdv : Statement .setdv := by simp [Statement, encode]
theorem round (r : Fin 24) : Statement (.round r) := Or.inl ⟨r, rfl⟩
theorem permute : Statement .permute := Or.inr rfl

end Sys2Proof.Laws.CodeForm
end

