-- ==== Sys2Proof/Tests/Slice0.lean ====
section
/-!
SUPPORT. Our own tests, and for every statement with hypotheses a witness that meets them. Expected values
are the spec's: the encodings of spec/30_encoding.md, the tables and vectors of spec/95_test_vectors.md,
the examples in the rules. A test that evaluates a lane function says `+kernel`, because those
functions are irreducible.
-/

namespace Sys2Proof.Tests

open Sys2Proof Sys2Proof.Machine

/-! ## Small states -/

/-- The reset state with one word presented. -/
def hearing (w : CommandWord) : State := { State.reset with host := [.present w] }

/-- The done phase, with the word presented; lanes 0 to 3 are the digest of the empty message (V5). -/
def doneHearing (w : CommandWord) : State :=
  { State.reset with
    dv := true
    host := [.present w]
    lanes := Vector.ofFn fun i => #v[0x3C23F7860146D2C5#64, 0xC003C7DCB27D7E92, 0x3B2782CA53B600E5,
      0x70A4855D04D8FA7B, 0x74A97CD82C9ABB3D].getD i.val 0 }

/-- `CNT` = c with one byte 0x61 at address 0 and a word presented. -/
def heldHearing (c : BitVec 8) (w : CommandWord) : State :=
  { State.reset with buf := [(0, 0x61)], cnt := c, host := [.present w] }

/-- A running command at micro-operation `u`. -/
def running (u : Uop) (r : Fin 24) (fin : Bool) : State :=
  { State.reset with uop := u, rnd := r, fin := fin, cnt := 136, latch := some 0x000 }

/-- `S` of V6: byte i+1 in all eight bytes of lane i. -/
def counting : Lanes := Vector.ofFn fun i => BitVec.ofNat 64 ((i.val + 1) * 0x0101010101010101)

/-- A state with the lanes of V6. -/
def countingState : State := { State.reset with lanes := counting }

/-- The lanes after an instruction that answers a next state. -/
def lanesAfter (i : Instr) (s : State) : Option Lanes :=
  match exec i s with
  | .next t => some t.lanes
  | _ => none

/-- One field after a step that answers a next state. -/
def fieldAfter {β : Type} (f : State → β) (s : State) : Option β :=
  match step s with
  | .next t => some (f t)
  | _ => none

/-! ## Well-formedness: an ill-formed term for each check -/

theorem test_wellFormed_rddig_limit :
    (Instr.rddig 31).wellFormed = true ∧ (Instr.rddig 32).wellFormed = false := by decide

theorem test_wellFormed_rdcr_limit :
    (Instr.rdcr 1).wellFormed = true ∧ (Instr.rdcr 2).wellFormed = false := by decide

/-! ## Decoding: words written out bit by bit from rules R73 and R78 -/

theorem test_decode_init : decodeTableWord 16 0b0001_0000_00000000 = some .init := by decide
theorem test_decode_absorb : decodeTableWord 16 0b0010_0000_01100001 = some (.absorb 0x61) := by decide
theorem test_decode_final : decodeTableWord 16 0b0011_0000_00000000 = some .final := by decide
theorem test_decode_rddig : decodeTableWord 16 0b0100_0000_00011111 = some (.rddig 31) := by decide
theorem test_decode_rdcr : decodeTableWord 16 0b0101_0000_00000001 = some (.rdcr 1) := by decide
theorem test_decode_idle : decodeTableWord 8 0b0000 = some .idle := by decide
theorem test_decode_theta : decodeTableWord 8 0b0001 = some .theta := by decide
theorem test_decode_rho : decodeTableWord 8 0b0010 = some .rho := by decide
theorem test_decode_pi : decodeTableWord 8 0b0011 = some .pi := by decide
theorem test_decode_chi : decodeTableWord 8 0b0100 = some .chi := by decide
theorem test_decode_iota : decodeTableWord 8 0b0101 = some .iota := by decide
theorem test_decode_xorin : decodeTableWord 8 0b0110 = some .xorin := by decide
theorem test_decode_bufclr : decodeTableWord 8 0b0111 = some .bufclr := by decide
theorem test_decode_setdv : decodeTableWord 8 0b1000 = some .setdv := by decide

/-- Lines 1 to 3 of rule R76, each with the name of its reason, and their order. -/
theorem test_decode_refuses_by_name :
    decodeCommand 0x0000 = .error .reservedOpcode ∧ decodeCommand 0x6000 = .error .reservedOpcode ∧
    decodeCommand 0x70FF = .error .reservedOpcode ∧ decodeCommand 0xFFFF = .error .reservedOpcode ∧
    decodeCommand 0x2161 = .error .reservedBits ∧ decodeCommand 0x1101 = .error .reservedBits ∧
    decodeCommand 0x1001 = .error .operandNotZero ∧ decodeCommand 0x3001 = .error .operandNotZero := by
  decide

/-- A word longer than 16 bits, a sequencer code above 0x8, and a row without bits name nothing. -/
theorem test_decode_outside_the_formats :
    decodeTableWord 16 0x11000 = none ∧ decodeTableWord 8 0x9 = none ∧ decodeTableWord 8 0xF = none ∧
    decodeTableWord 8 0x10 = none ∧ decodeTableWord 0 0 = none ∧ decodeTableWord 32 0x1000 = none := by
  decide

theorem test_encode_rddig : encode (.rddig 0x1F) = some (.command 0x401F) := by decide
theorem test_encode_setdv : encode .setdv = some (.uop 0x8) := by decide
theorem test_encode_composites_have_none : encode (.round 0) = none ∧ encode .permute = none := by decide

/-! ## The primitive and the tables -/

/-- V7. -/
theorem test_rotl64 :
    rotl64 0x8000000000000001 1 = 0x0000000000000003 ∧
    rotl64 0x0000000000000001 63 = 0x8000000000000000 ∧
    rotl64 0x0123456789ABCDEF 0 = 0x0123456789ABCDEF ∧
    rotl64 0x0123456789ABCDEF 32 = 0x89ABCDEF01234567 ∧
    rotl64 0x0123456789ABCDEF 36 = 0x9ABCDEF012345678 ∧
    rotl64 0x0123456789ABCDEF 63 = 0x8091A2B3C4D5E6F7 := by decide

/-- V15: `rc(0..15)`. -/
theorem test_rcBit : (List.range 16).map rcBit =
    [true, false, false, false, false, false, false, false, true, false, true, true, false, false, false,
      true] := by decide

/-- Rule R93's table, row by row: the source of each destination. -/
theorem test_pi_table : lanesAfter .pi countingState =
    some (Vector.ofFn fun i => counting[(#v[0, 6, 12, 18, 24, 3, 9, 10, 16, 22, 1, 7, 13, 19, 20,
      4, 5, 11, 17, 23, 2, 8, 14, 15, 21] : Vector (Fin 25) 25)[i]]) := by decide +kernel

/-! ## The permutation engine, on `S` of V6 -/

theorem test_theta : (lanesAfter .theta countingState).map (fun a => (a[0], a[4], a[7], a[24])) =
    some (0x1010101010101010, 0x1F1F1F1F1F1F1F1F, 0x1616161616161616, 0x0303030303030303) := by
  decide +kernel

/-- V5: the mask of a column wraps, `C[-1]` is `C[4]`, and the top bit of `C[1]` goes to bit 0. -/
theorem test_theta_wraps :
    (lanesAfter .theta { State.reset with
      lanes := ((Vector.replicate 25 0).set 0 1).set 16 0x8000000000000000 }).map
        (fun a => (a[0], a[16], a[5], a[4], a[2])) =
    some (0, 0x8000000000000001, 1, 2, 0x8000000000000000) := by decide +kernel

theorem test_rho : (lanesAfter .rho countingState).map (fun a => (a[0], a[1], a[2], a[14], a[24])) =
    some (0x0101010101010101, 0x0404040404040404, 0xC0C0C0C0C0C0C0C0, 0x8787878787878787,
      0x4646464646464646) := by decide +kernel

theorem test_pi : (lanesAfter .pi countingState).map (fun a => (a[1], a[10], a[19])) =
    some (0x0707070707070707, 0x0202020202020202, 0x1818181818181818) := by decide +kernel

theorem test_chi : (lanesAfter .chi countingState).map (fun a => (a[0], a[3], a[4], a[24])) =
    some (0, 0x0404040404040404, 0x0707070707070707, 0x1B1B1B1B1B1B1B1B) := by decide +kernel

/-- V6 with r = 23, and the end of the loop. -/
theorem test_iota_last : (lanesAfter .iota { countingState with rnd := 23 }).map (fun a => (a[0], a[1])) =
      some (0x8101010181018109, 0x0202020202020202) ∧
    fieldAfter (fun t => (t.rnd, t.uop)) (running .iota 23 true) = some (0, .bufclr) := by decide +kernel

/-- Rule R95's example, and the loop goes on from round 22. -/
theorem test_iota_first : (lanesAfter .iota State.reset).map (fun a => a[0]) = some 1 ∧
    fieldAfter (fun t => (t.rnd, t.uop)) (running .iota 22 true) = some (23, .theta) := by decide +kernel

/-- V6, `Round(S, 0)`. -/
theorem test_round : (lanesAfter (.round 0) countingState).map (fun a => (a[0], a[7], a[18], a[19], a[24])) =
    some (0x0808080808080809, 0xF0F0F0F0F0F0F0F0, 0xFEFEFEFEFEFEFEFE, 0, 0x6C6C6C6C6C6C6C6C) := by
  decide +kernel

/-- V5, the last round: lanes 0 to 3 become the digest of the empty message. -/
theorem test_round_last :
    (lanesAfter (.round 23) { State.reset with
      lanes := #v[0xB776C454221536A0, 0x2CC562AAB665C6AC, 0x96854EC3F757A478, 0xBAF0E8C55C739718,
        0x8263456BA091515A, 0x76626AC752F6F6AA, 0x4E6FB95A23376335, 0x6DD890FA0AC6380B,
        0xE63E22AC7DE0AF2A, 0x9ECFC93F76589EEC, 0xA0B01B1261AB6A01, 0xAE3D547551959057,
        0x016E9BF1D538D80D, 0x2167900EA6E5A7BE, 0x7A406941F60CF465, 0xD3881A5CA182984D,
        0xBD5F1E80592136C8, 0x9B8A935BA0DDF5B0, 0x242C1ECEF1782E23, 0xF105204297C34BE6,
        0xCEFB15EC5F89B0AD, 0xDA47883FE04394BD, 0x668C64884A0EC53F, 0xA8511C9CFC53E49B,
        0xF48EFCF3A69E3A4E] }).map (fun a => (a[0], a[1], a[2], a[3], a[24])) =
    some (0x3C23F7860146D2C5, 0xC003C7DCB27D7E92, 0x3B2782CA53B600E5, 0x70A4855D04D8FA7B,
      0xA3FE1AF7779FAFD7) := by decide +kernel

/-- `PERMUTE` ends as its last `IOTA` does. -/
theorem test_permute_ends :
    (match exec .permute (running .theta 0 true) with
      | .next t => some (t.rnd, t.uop, t.cnt)
      | _ => none) = some (0, .bufclr, 136) := by rfl

/-- The fused form on `S` (rule R104). -/
theorem test_rhoPi : rhoPi counting = pi (rho counting) := by decide +kernel

/-! ## The sponge unit -/

/-- V12, block of bytes 0x00, 0x01, ..., 0x87 into the zero state: `A[0]` and `A[16]`, and the capacity. -/
theorem test_xorin :
    let a := xorIn (Vector.replicate 25 0) (fun i => BitVec.ofNat 8 i)
    a[0] = 0x0706050403020100 ∧ a[16] = 0x8786858483828180 ∧ a[17] = 0 ∧ a[24] = 0 := by decide +kernel

/-- Rule R121's example, through the step. -/
theorem test_xorin_step :
    fieldAfter (fun t => (t.lanes[0], t.lanes[16], t.lanes[17], t.uop))
      { running .xorin 0 true with buf := [(0, 0x01), (135, 0x80)] } =
    some (1, 0x8000000000000000, 0, .theta) := by decide +kernel

theorem test_bufclr_in_absorb :
    fieldAfter (fun t => (t.buf, t.cnt, t.uop)) { running .bufclr 0 false with buf := [(5, 0x61)] } =
    some ([], 0, .idle) := by decide

theorem test_bufclr_in_final : fieldAfter (fun t => t.uop) (running .bufclr 0 true) = some .setdv := by decide

theorem test_setdv : fieldAfter (fun t => (t.dv, t.fin, t.uop, t.latch)) (running .setdv 0 true) =
    some (true, false, .idle, some 0x000) := by decide

/-- Rule R124's example: the first byte from reset. -/
theorem test_absorb_first :
    fieldAfter (fun t => (t.buf, t.cnt, t.uop, t.latch)) (hearing 0x2061) =
    some ([(0, 0x61)], 1, .idle, some 0x000) := by decide

/-- The 136th byte starts the micro-program in the same command. -/
theorem test_absorb_last :
    fieldAfter (fun t => (t.buf, t.cnt, t.uop, t.fin)) (heldHearing 135 0x2062) =
    some ([(0, 0x61), (135, 0x62)], 136, .xorin, false) := by decide

/-- A byte 0x00 is counted, and keeps the canonical form. -/
theorem test_absorb_zero_byte :
    fieldAfter (fun t => (t.buf, t.cnt)) (heldHearing 1 0x2000) = some ([(0, 0x61)], 2) := by decide

/-- The table of padded blocks: `CNT` = 0, 3, 134, 135 (the bytes 0x61 cut to the first). -/
theorem test_final_padded_blocks :
    fieldAfter (fun t => (t.buf, t.cnt, t.uop, t.fin)) (hearing 0x3000) =
      some ([(0, 0x01), (135, 0x80)], 0, .xorin, true) ∧
    fieldAfter (fun t => t.buf) (heldHearing 3 0x3000) = some [(0, 0x61), (3, 0x01), (135, 0x80)] ∧
    fieldAfter (fun t => t.buf) (heldHearing 134 0x3000) = some [(0, 0x61), (134, 0x01), (135, 0x80)] ∧
    fieldAfter (fun t => t.buf) (heldHearing 135 0x3000) = some [(0, 0x61), (135, 0x81)] := by decide

/-- V1: digest bytes 0 and 31 of the empty message, and byte order inside a lane. -/
theorem test_rddig :
    fieldAfter (fun t => t.latch) (doneHearing 0x4000) = some (some 0x0C5) ∧
    fieldAfter (fun t => t.latch) (doneHearing 0x4007) = some (some 0x03C) ∧
    fieldAfter (fun t => t.latch) (doneHearing 0x4008) = some (some 0x092) ∧
    fieldAfter (fun t => t.latch) (doneHearing 0x401F) = some (some 0x070) := by decide

/-- P4, lines 3 and 9: `STATUS` with `ERR` = 3, in both phases. -/
theorem test_rdcr_status :
    fieldAfter (fun t => t.latch) { hearing 0x5000 with err := 3 } = some (some 0x006) ∧
    fieldAfter (fun t => t.latch) { doneHearing 0x5000 with err := 3 } = some (some 0x007) := by decide

theorem test_rdcr_cnt : fieldAfter (fun t => t.latch) (heldHearing 3 0x5001) = some (some 0x003) := by decide

/-! ## Control, rejection, the host -/

/-- P6 and P4, line 16: `INIT` discards a message, a digest and the recorded cause. -/
theorem test_init :
    step { doneHearing 0x1000 with err := 3, buf := [(0, 0x61)], cnt := 1 } =
      .next { State.reset with latch := some 0x000 } := by rfl

/-- Rule R154: `INIT` straight after reset changes nothing but the response. -/
theorem test_init_after_reset : step (hearing 0x1000) = .next { State.reset with latch := some 0x000 } := by rfl

/-- V13, from reset: the response and `ERR` of each word. -/
theorem test_rejection_from_reset :
    [0x4120, 0x4020, 0x4000, 0x3001, 0x5102, 0x5002, 0x70FF, 0x0000, 0xFFFF].map
      (fun w => fieldAfter (fun t => (t.latch, t.err)) (hearing w)) =
    [some (some 0x100, 1), some (some 0x200, 2), some (some 0x300, 3), some (some 0x100, 1),
      some (some 0x100, 1), some (some 0x200, 2), some (some 0x100, 1), some (some 0x100, 1),
      some (some 0x100, 1)] := by decide

/-- V13, in the done phase. -/
theorem test_rejection_when_done :
    [0x2061, 0x3000, 0x3001, 0x4020, 0x401F, 0x2161].map
      (fun w => fieldAfter (fun t => (t.latch, t.err)) (doneHearing w)) =
    [some (some 0x300, 3), some (some 0x300, 3), some (some 0x100, 1), some (some 0x200, 2),
      some (some 0x070, 0), some (some 0x100, 1)] := by decide

/-- P4, line 12: `ERR` keeps the first cause, the response carries its own. -/
theorem test_err_keeps_first :
    fieldAfter (fun t => (t.latch, t.err)) { hearing 0x0000 with err := 3 } = some (some 0x100, 3) := by decide

/-- `IDLE` delivers before it accepts (rules R71, R163). -/
theorem test_idle_delivers :
    step { hearing 0x3000 with latch := some 0x0C5 } = .next { hearing 0x3000 with rsp := [0x0C5] } := by rfl

/-- `IDLE` waits for any length of time (rule R195); a pause is over after its step. -/
theorem test_idle_waits : step State.reset = .next State.reset ∧
    step { State.reset with host := [.pause, .present 0x1000] } = .next (hearing 0x1000) := ⟨rfl, rfl⟩

/-- A word presented while the core is busy is held (rule R70). -/
theorem test_busy_holds_the_word :
    fieldAfter (fun t => t.host) { running .setdv 0 true with host := [.present 0x1000] } =
    some [.present 0x1000] := by decide

/-- Reset in the middle of a command: the reset state and no response (rule R212). -/
theorem test_reset_mid_command :
    step { running .chi 5 true with host := [.reset], lanes := counting, rsp := [0x000] } =
      .next { State.reset with rsp := [0x000] } := by rfl

/-! ## Witnesses: for each statement with hypotheses, values that meet them all -/

theorem witness_DecodeOfEncode : encode (.rddig 0xFF) = some (.command 0x40FF) ∧
    encode (.absorb 0) = some (.command 0x2000) ∧ encode .idle = some (.uop 0) := by decide

theorem witness_EncodeOfDecode : decodeCode (.command 0x50FF) = some (.rdcr 0xFF) ∧
    decodeCode (.uop 8) = some .setdv := by decide

theorem witness_ReadyFor : (hearing 0x3000).ReadyFor 0x3000 [] ∧ (doneHearing 0x401F).ReadyFor 0x401F [] :=
  ⟨⟨rfl, rfl, rfl⟩, ⟨rfl, rfl, rfl⟩⟩

theorem witness_StepRunsThePresentedCommand :
    (hearing 0x3000).ReadyFor 0x3000 [] ∧ decodeTableWord 16 (0x3000#16).toNat = some .final :=
  ⟨⟨rfl, rfl, rfl⟩, by decide⟩

theorem witness_StepRunsTheSequencerCode :
    ((running .chi 3 true).resetAsserted = false ∧ (running .chi 3 true).pausing = false) ∧
    (({ running .chi 3 true with host := [.pause] } : State).resetAsserted = false ∧
      ({ running .chi 3 true with host := [.pause] } : State).pausing = true) := by decide

theorem witness_PlacedCode : decodeTableWord 16 0x40FF = some (.rddig 0xFF) ∧
    decodeTableWord 8 8 = some .setdv ∧ State.reset.host = [] := by decide

theorem witness_BusyCoreAcceptsNothing :
    (({ running .iota 23 true with host := [.present 0x2061] } : State).host = .present 0x2061 :: [] ∧
      ({ running .iota 23 true with host := [.present 0x2061] } : State).uop ≠ .idle) ∧
    (({ hearing 0x2061 with latch := some 0 } : State).host = .present 0x2061 :: [] ∧
      ({ hearing 0x2061 with latch := some 0 } : State).latch ≠ none) := by decide

theorem witness_ResetOverrides :
    ({ running .rho 7 true with host := [.reset, .pause] } : State).host = .reset :: [.pause] := rfl

/-- The clauses of the rotation at 0, 1 and 63. -/
theorem witness_RotateLeft : rotl64 5 0 = 5 ∧ rotl64 0x8000000000000000 1 = 1 ∧ rotl64 2 63 = 1 := by decide

/-- The two ends of the round index. -/
theorem witness_Iota : (running .iota 22 true).rnd.val < 23 ∧ (running .iota 23 true).rnd.val = 23 := by decide

theorem witness_RoundIndex : (22 : Fin 24).val < 23 ∧ (23 : Fin 24).val = 23 := by decide

/-- Arrays a, b and their XOR. -/
theorem witness_Affine : ∀ i : Fin 25,
    (Vector.replicate 25 (6 : Lane))[i] = (Vector.replicate 25 (5 : Lane))[i] ^^^ (Vector.replicate 25 (3 : Lane))[i] := by
  decide

/-- Two different arrays that agree on bit 0. -/
theorem witness_ChiBits :
    let a : Lanes := Vector.replicate 25 5
    let b : Lanes := Vector.replicate 25 3
    a ≠ b ∧ (lane a 3 1).getLsbD 0 = (lane b 3 1).getLsbD 0 ∧
      (lane a (3 + 1) 1).getLsbD 0 = (lane b (3 + 1) 1).getLsbD 0 ∧
      (lane a (3 + 2) 1).getLsbD 0 = (lane b (3 + 2) 1).getLsbD 0 := by decide

theorem witness_SequencerPermutes : (running .theta 0 true).uop = .theta ∧ (running .theta 0 true).rnd = 0 ∧
    HostMove.reset ∉ [HostMove.pause, .present 0x2061] := by decide

/-- The last word of the block, bytes 128 to 135. -/
theorem witness_BufferWord : blockWord (Memory.read [(128, 0x01), (135, 0x80)]) 16 = 0x8000000000000001 := by decide

/-- Both sides of the end of the rate: image bytes 135 and 136, lanes 16 and 17. -/
theorem witness_Xorin :
    let a := xorIn (Vector.replicate 25 0x1111111111111111) (fun _ => 0x11)
    imageByte a 135 = 0 ∧ imageByte a 136 = 0x11 ∧ a[16] = 0 ∧ a[17] = 0x1111111111111111 := by decide +kernel

theorem witness_Bufclr : (running .bufclr 0 true).fin = true ∧ (running .bufclr 0 false).fin = false := by decide

/-- The counts 134 and 135. -/
theorem witness_AbsorbAppends :
    ((heldHearing 134 0).dv = false ∧ (heldHearing 134 0).cnt.toNat < 135 ∧ (heldHearing 134 0).buf.wf = true) ∧
    ((heldHearing 135 0).dv = false ∧ (heldHearing 135 0).cnt.toNat = 135 ∧ (heldHearing 135 0).buf.wf = true) := by
  decide

/-- The counts 0, 134 and 135, and an address in each range. -/
theorem witness_FinalPads :
    (State.reset.dv = false ∧ State.reset.cnt.toNat = 0 ∧ State.reset.buf.wf = true) ∧
    ((heldHearing 133 0).cnt.toNat < 134 ∧ 134 < 135 ∧ 0 < (heldHearing 133 0).cnt.toNat) ∧
    (heldHearing 135 0).cnt.toNat = 135 := by decide

theorem witness_PaddingAgrees : Memory.wf [(0, 0x61), (134, 0x62)] = true ∧ (135 : Nat) ≤ 135 := by decide

/-- The last address, and `BUFCLR` at the count 136 that it has in a block-filling `ABSORB`. -/
theorem witness_Canonical : Memory.wf [(0, 0x61)] = true ∧ (135 : Nat) ≤ 135 ∧
    (heldHearing 135 0).buf.wf = true ∧
    exec (.absorb 0x62) (heldHearing 135 0) = .next ((heldHearing 135 0).absorbStep 0x62) ∧
    (heldHearing 136 0).buf.wf = true ∧ exec .bufclr (heldHearing 136 0) = .next (heldHearing 136 0).bufclrStep :=
  ⟨by decide, by decide, by decide, rfl, by decide, rfl⟩

theorem witness_CountBeyond : (heldHearing 136 0).dv = false ∧ 136 ≤ (heldHearing 136 0).cnt.toNat := by decide

theorem witness_Rddig : (doneHearing 0x4000).dv = true ∧ (0#8).toNat ≤ 31 ∧ (31#8).toNat ≤ 31 := by decide

/-- The reset state with any moves meets the invariant. -/
theorem inv_of_moves (moves : List HostMove) : ({ State.reset with host := moves } : State).Inv :=
  ⟨rfl, fun _ => ⟨Nat.zero_le 135, fun _ _ => rfl, rfl, rfl, fun h => by cases h⟩, fun h => absurd rfl h⟩

theorem witness_InitEqualsReset : (hearing 0x1000).Inv ∧ (hearing 0x1000).ReadyFor 0x1000 [] :=
  ⟨inv_of_moves _, ⟨rfl, rfl, rfl⟩⟩

/-- An idle state in which `INIT` has something to clear. -/
theorem witness_ResetStateValues : (heldHearing 135 0).uop = .idle ∧ (heldHearing 135 0).rnd = 0 ∧
    (heldHearing 135 0).fin = false ∧ (heldHearing 135 0).cnt = 135 := by decide

/-- A count of 135 meets the invariant. -/
theorem witness_Inv_count_135 : (heldHearing 135 0x2062).Inv := by
  refine ⟨rfl, fun _ => ⟨by decide, fun i hi => ?_, rfl, rfl, fun h => by cases h⟩, fun h => absurd rfl h⟩
  have h135 : 135 ≤ i := hi
  exact if_neg (show ¬(0 : Nat) = i by omega)

/-- A running `FINAL` in its last round meets the invariant, and so does a block-filling `ABSORB`. -/
theorem witness_Inv_running : ({ running .iota 23 true with cnt := 0 } : State).Inv ∧ (running .xorin 0 false).Inv := by
  refine ⟨⟨rfl, fun h => (nomatch h), fun _ => ⟨rfl, rfl, fun h => (nomatch h), ?_, fun _ => by decide⟩⟩,
    ⟨rfl, fun h => (nomatch h), fun _ => ⟨rfl, rfl, fun h => (nomatch h), fun _ => rfl, fun _ => by decide⟩⟩⟩
  rintro (h | h) <;> cases h

theorem witness_IdleDelivers : ({ State.reset with latch := some 0x0C5 } : State).latch = some 0x0C5 ∧
    State.reset.latch = none ∧ (∀ w rest, State.reset.host ≠ .present w :: rest) :=
  ⟨rfl, rfl, fun _ _ h => by cases h⟩

theorem witness_IdleDispatches : (hearing 0x3000).latch = none ∧ (hearing 0x3000).host = .present 0x3000 :: [] ∧
    decodeTableWord 16 (0x3000#16).toNat = some .final ∧ (hearing 0x3001).host = .present 0x3001 :: [] ∧
    illegalWord 0x3001 := ⟨rfl, rfl, by decide, rfl, by unfold illegalWord; decide⟩

/-- One word for each cause, at the edge of its range. -/
theorem witness_Rejection :
    ((hearing 0x4120).ReadyFor 0x4120 [] ∧ illegalWord 0x4120) ∧
    ((hearing 0x4020).ReadyFor 0x4020 [] ∧ ¬illegalWord 0x4020 ∧ outOfRangeWord 0x4020) ∧
    ((hearing 0x5002).ReadyFor 0x5002 [] ∧ ¬illegalWord 0x5002 ∧ outOfRangeWord 0x5002) ∧
    ((hearing 0x401F).ReadyFor 0x401F [] ∧ ¬illegalWord 0x401F ∧ ¬outOfRangeWord 0x401F ∧ outOfPhaseWord 0x401F false) ∧
    ((doneHearing 0x20FF).ReadyFor 0x20FF [] ∧ ¬illegalWord 0x20FF ∧ ¬outOfRangeWord 0x20FF ∧
      outOfPhaseWord 0x20FF true) := by
  unfold State.ReadyFor illegalWord outOfRangeWord outOfPhaseWord
  constructorm* _ ∧ _
  all_goals decide

theorem witness_Accepted :
    ((heldHearing 135 0x20FF).ReadyFor 0x20FF [] ∧ (heldHearing 135 0x20FF).cnt.toNat ≤ 135 ∧ ¬illegalWord 0x20FF ∧
      ¬outOfRangeWord 0x20FF ∧ ¬outOfPhaseWord 0x20FF false) ∧
    ((doneHearing 0x401F).ReadyFor 0x401F [] ∧ (doneHearing 0x401F).cnt.toNat ≤ 135 ∧ ¬illegalWord 0x401F ∧
      ¬outOfRangeWord 0x401F ∧ ¬outOfPhaseWord 0x401F true) ∧
    ((doneHearing 0x1000).ReadyFor 0x1000 [] ∧ ¬illegalWord 0x1000 ∧ ¬outOfRangeWord 0x1000 ∧
      ¬outOfPhaseWord 0x1000 true) := by
  unfold State.ReadyFor illegalWord outOfRangeWord outOfPhaseWord
  constructorm* _ ∧ _
  all_goals decide

theorem witness_MeaningsReject : (doneHearing 0).dv = true ∧ State.reset.dv = false ∧ 32 ≤ (32#8).toNat ∧
    (31#8).toNat ≤ 31 ∧ 2 ≤ (2#8).toNat := by decide

/-- One state for each of the four clauses. -/
theorem witness_OneResponse :
    ((hearing 0x5001).resetAsserted = false ∧ step (hearing 0x5001) = .next { State.reset with latch := some 0x000 } ∧
      (hearing 0x5001).ReadyFor 0x5001 []) ∧
    (∃ t, step { State.reset with latch := some 0x0C5 } = .next t) ∧
    (∃ t, step (running .setdv 0 true) = .next t) ∧ (running .setdv 0 true).uop ≠ .idle ∧
    step State.reset = .next State.reset :=
  ⟨⟨rfl, rfl, rfl, rfl, rfl⟩, ⟨_, rfl⟩, ⟨_, rfl⟩, by decide, rfl⟩

theorem witness_ResponsesStayLegal :
    ({ State.reset with latch := some 0x0FF, rsp := [0x100, 0x200, 0x300] } : State).ResponsesLegal ∧
    ∃ t, step { State.reset with latch := some 0x0FF, rsp := [0x100, 0x200, 0x300] } = .next t := by
  refine ⟨fun r h => ?_, _, rfl⟩
  have h' : r = 0x0FF ∨ r = 0x100 ∨ r = 0x200 ∨ r = 0x300 := by
    rcases h with h | h
    · cases h; exact Or.inl rfl
    · rcases List.mem_cons.1 h with h | h
      · exact Or.inr (Or.inl h)
      · rcases List.mem_cons.1 h with h | h
        · exact Or.inr (Or.inr (Or.inl h))
        · exact Or.inr (Or.inr (Or.inr (List.mem_singleton.1 h)))
  rcases h' with rfl | h'
  · exact Or.inl (by decide)
  · exact Or.inr h'

theorem witness_CountsDown : (running .bufclr 0 true).uop ≠ .idle ∧ (running .bufclr 0 true).resetAsserted = false ∧
    (running .bufclr 0 true).stepsLeft = 2 ∧ (running .xorin 0 true).stepsLeft = 123 := by decide

/-- The three lengths. -/
theorem witness_StepsPerCommand :
    ((heldHearing 135 0x20FF).ReadyFor 0x20FF [] ∧ (heldHearing 135 0x20FF).dv = false ∧
      (heldHearing 135 0x20FF).cnt.toNat = 135) ∧
    ((hearing 0x3000).ReadyFor 0x3000 [] ∧ (hearing 0x3000).dv = false ∧ (hearing 0x3000).cnt.toNat ≤ 135) ∧
    ((heldHearing 134 0x2000).ReadyFor 0x2000 [] ∧ (heldHearing 134 0x2000).cnt.toNat ≤ 135) := by
  unfold State.ReadyFor
  decide

/-- A host that pauses once in the command and then holds a word. -/
theorem witness_MicroSteps :
    let s : State := { heldHearing 135 0 with host := [.present 0x2062, .pause, .present 0x5001] }
    s.ReadyFor 0x2062 [.pause, .present 0x5001] ∧ HostMove.reset ∉ [HostMove.pause, .present 0x5001] ∧ s.Inv :=
  ⟨⟨rfl, rfl, rfl⟩, by decide, witness_Inv_count_135⟩

/-- A recorded cause, kept by a rejection and cleared by `INIT`. -/
theorem witness_ErrKeeps : ({ hearing 0x0000 with err := 3 } : State).err ≠ 0 ∧
    (∃ t, step { hearing 0x0000 with err := 3 } = .next t ∧ t.err = 3) ∧
    ∃ t, step { hearing 0x1000 with err := 3 } = .next t ∧ t.err = 0 :=
  ⟨by decide, ⟨_, rfl, rfl⟩, ⟨_, rfl, rfl⟩⟩

theorem witness_ErrIsOnlyARecord : (hearing 0x3000).ReadyFor 0x3000 [] ∧ (∃ t, step (hearing 0x3000) = .next t) ∧
    (0x3000 : CommandWord) ≠ 0x5000 := ⟨⟨rfl, rfl, rfl⟩, ⟨_, rfl⟩, by decide⟩

/-- V14: reads and rejected words between the `ABSORB`s. -/
theorem witness_AbsorbedBlocks :
    let ws : List CommandWord := [0x2061, 0x5001, 0x4000, 0x2062, 0x6000, 0x2063]
    0x1000 ∉ ws ∧ 0x3000 ∉ ws ∧ [0x61, 0x62, 0x63] = absorbedBytes ws ∧
      ∃ t, t = commandRun ws State.reset ∧ t.cnt = 3 := ⟨by decide, by decide, by decide, _, rfl, by decide⟩

theorem witness_CmdReady : (hearing 0x3000).cmdReady = true ∧ (∃ t, step (hearing 0x3000) = .next t) ∧
    ({ hearing 0x3000 with latch := some 0 } : State).cmdReady = false ∧
    (∃ t, step { hearing 0x3000 with latch := some 0 } = .next t) ∧
    ({ State.reset with host := [.reset] } : State).cmdReady = false :=
  ⟨by decide, ⟨_, rfl⟩, by decide, ⟨_, rfl⟩, by decide⟩

theorem witness_DvChanges : (∃ t, step (doneHearing 0x1000) = .next t ∧ (doneHearing 0x1000).dv = true ∧ t.dv = false) ∧
    ∃ t, step (running .setdv 0 true) = .next t ∧ (running .setdv 0 true).dv = false ∧ t.dv = true :=
  ⟨⟨_, rfl, rfl, rfl⟩, ⟨_, rfl, rfl, rfl⟩⟩

theorem witness_Capacity : (∃ t, step (running .xorin 0 true) = .next t) ∧
    (running .xorin 0 true).resetAsserted = false ∧ (∀ rest, ¬(running .xorin 0 true).ReadyFor 0x1000 rest) ∧
    (running .xorin 0 true).uop ≠ .theta ∧ (running .xorin 0 true).uop ≠ .rho ∧
    (running .xorin 0 true).uop ≠ .pi ∧ (running .xorin 0 true).uop ≠ .chi :=
  ⟨⟨_, rfl⟩, rfl, fun _ h => (nomatch h.1), by decide, by decide, by decide, by decide⟩

theorem witness_PermutationStarts : (∃ t, step (hearing 0x3000) = .next t ∧ t.uop = .xorin) ∧
    ∃ t, step (heldHearing 135 0x2000) = .next t ∧ t.uop = .xorin := ⟨⟨_, rfl, rfl⟩, ⟨_, rfl, rfl⟩⟩

/-- Two states with different hidden lanes and the same view, in both phases. -/
theorem witness_HiddenState :
    SameView (hearing 0x5000) { hearing 0x5000 with lanes := counting } ∧
    (hearing 0x5000).lanes ≠ ({ hearing 0x5000 with lanes := counting } : State).lanes ∧
    SameView (doneHearing 0x401F) { doneHearing 0x401F with lanes := (doneHearing 0x401F).lanes.set 24 1 } ∧
    (doneHearing 0x401F).ReadyFor 0x401F [] ∧ (∃ t, step (doneHearing 0x401F) = .next t) ∧
    ∃ t, step { doneHearing 0x401F with lanes := (doneHearing 0x401F).lanes.set 24 1 } = .next t := by
  refine ⟨⟨rfl, rfl, rfl, fun h => by cases h⟩, by decide, ⟨rfl, rfl, rfl, fun _ => by decide⟩, ⟨rfl, rfl, rfl⟩,
    ⟨_, rfl⟩, ⟨_, rfl⟩⟩

/-- A word of each kind that leaves the message alone. -/
theorem witness_Harmless :
    ((hearing 0x6000).ReadyFor 0x6000 [] ∧ illegalWord 0x6000) ∧
    ((hearing 0x40FF).ReadyFor 0x40FF [] ∧ outOfRangeWord 0x40FF) ∧
    ((doneHearing 0x3000).ReadyFor 0x3000 [] ∧ outOfPhaseWord 0x3000 (doneHearing 0x3000).dv) ∧
    ((doneHearing 0x4000).ReadyFor 0x4000 [] ∧ 0x4000 ≤ (0x4000#16).toNat ∧ (0x4000#16).toNat ≤ 0x50FF) := by
  unfold State.ReadyFor illegalWord outOfRangeWord outOfPhaseWord
  constructorm* _ ∧ _
  all_goals decide

end Sys2Proof.Tests
end

section
/-!
PROOFS. Where the micro-program starts (rules R4, R126, R131): what a decoded word is, which dispatch and which
micro-operation leave the sequencer at `XORIN`, and the step they make up.
-/

namespace Sys2Proof.Machine

/-! ## The word that a command is decoded from -/

/-- A word that names a command is that command's code (rules R73, R76). -/
theorem encode_of_decodeCommand {w : CommandWord} {c : Command} (h : decodeCommand w = .ok c) :
    encode c.instr = some (.command w) := by
  have op_le_five : ∀ op : BitVec 4, ¬(op = 0 ∨ 5 < op.toNat) →
      op ≠ 1 → op ≠ 2 → op ≠ 3 → op ≠ 4 → op = 5 := by decide
  have imm_eq_zero (hn : ¬((opField w = 1 ∨ opField w = 3) ∧ immField w ≠ 0))
      (ho : opField w = 1 ∨ opField w = 3) : immField w = 0 :=
    not_not.1 fun hne => hn ⟨ho, hne⟩
  have code {op : BitVec 4} {imm : Byte} (hr : rsvField w = 0) (ho : opField w = op)
      (hi : immField w = imm) : w = commandWord op imm := by
    rw [← ho, ← hi, commandWord_fields hr]
  unfold decodeCommand at h
  split_ifs at h with hop hrsv himm h1 h2 h3 h4 <;> cases h <;>
    have hr : rsvField w = 0 := not_not.1 hrsv
  · rw [code hr h1 (imm_eq_zero himm (.inl h1))]; rfl
  · rw [code hr h2 rfl, immField_commandWord]; rfl
  · rw [code hr h3 (imm_eq_zero himm (.inr h3))]; rfl
  · rw [code hr h4 rfl, immField_commandWord]; rfl
  · rw [code hr (op_le_five _ hop h1 h2 h3 h4) rfl, immField_commandWord]; rfl

/-- The words that name an `ABSORB`, by their value (rule R77). -/
theorem absorbWord_range {w : CommandWord} {b : Byte} (h : decodeCommand w = .ok (.absorb b)) :
    0x2000 ≤ w.toNat ∧ w.toNat ≤ 0x20FF := by
  have hw : commandWord 2 b = w := by simpa [Command.instr, encode] using encode_of_decodeCommand h
  have hv : w.toNat = 4096 * 2 + b.toNat := hw ▸ commandWord_toNat 2 b
  omega

/-- The one word that names `FINAL` (rule R77). -/
theorem finalWord_eq {w : CommandWord} (h : decodeCommand w = .ok .final) : w = 0x3000 := by
  have hw : commandWord 3 0 = w := by simpa [Command.instr, encode] using encode_of_decodeCommand h
  exact hw.symm

/-! ## What leaves the sequencer at `XORIN` -/

/-- An accepted `ABSORB` starts the micro-program exactly when it fills the buffer (rules R124, R126). -/
theorem State.absorbStep_uop_eq_xorin {b : Byte} {s : State} :
    (s.absorbStep b).uop = .xorin ↔ s.cnt.toNat = 135 := by
  have full : s.cnt + 1 = 136 ↔ s.cnt.toNat = 135 := by bv_omega
  by_cases h : s.cnt + 1 = 136
  · simp [State.absorbStep_of_eq h, full.1 h]
  · simp [State.absorbStep_of_ne h, mt full.2 h]

/-- A dispatch that starts the micro-program is that of an accepted `ABSORB` of the 136th byte or of an
accepted `FINAL` (rules R126, R131, R160). -/
theorem dispatch_starts_permutation {w : CommandWord} {s t : State} (h : dispatch w s = .next t)
    (hx : t.uop = .xorin) :
    s.dv = false ∧ (w = 0x3000 ∨ (0x2000 ≤ w.toNat ∧ w.toNat ≤ 0x20FF ∧ s.cnt.toNat = 135)) := by
  rcases dispatch_cases w s with ⟨c, hd⟩ | ⟨-, hd⟩ | ⟨b, hw, hdv, -, hd⟩ | ⟨hw, hdv, -, hd⟩ | ⟨d, hd⟩ | ⟨-, hd⟩
  all_goals cases hd.symm.trans h
  · simp at hx
  · simp at hx
  · obtain ⟨hlo, hhi⟩ := absorbWord_range hw
    exact ⟨hdv, .inr ⟨hlo, hhi, State.absorbStep_uop_eq_xorin.1 hx⟩⟩
  · exact ⟨hdv, .inl (finalWord_eq hw)⟩
  · simp at hx

/-- The last micro-operation of a round never leads back to `XORIN` (rule R161). -/
theorem afterIota_ne_xorin (r : Fin 24) : afterIota r ≠ .xorin := by
  unfold afterIota
  split <;> simp

/-- A micro-operation of a busy sequencer never leads to `XORIN`: the micro-program is not started from
within itself (rule R161). -/
theorem busy_exec_uop_ne_xorin {s t : State} (hu : s.uop ≠ .idle) (h : exec s.uop.instr s = .next t) :
    t.uop ≠ .xorin := by
  cases hs : s.uop with
  | idle => exact absurd hs hu
  | iota =>
    rw [hs, Uop.instr, exec_iota] at h
    cases h
    exact afterIota_ne_xorin s.rnd
  | bufclr =>
    rw [hs, Uop.instr, exec_bufclr] at h
    cases h
    rw [State.bufclrStep_uop]
    split <;> simp
  | theta | rho | pi | chi | xorin | setdv =>
    rw [hs] at h
    cases h
    simp

/-- Settles O55: of the four kinds of step, a reset leaves the sequencer idle, a wait or a delivery leaves it
as it was, a micro-operation never leads to `XORIN`, and so only a dispatch is left. -/
theorem permutationStartsOnlyFromTwoCommands : Obligations.PermutationStartsOnlyFromTwoCommands := by
  unfold Obligations.PermutationStartsOnlyFromTwoCommands
  intro s t h hx
  rcases step_cases h with ⟨-, rfl⟩ | ⟨-, w, rest, hready, hd⟩ | ⟨-, hidle, t', ht', ht⟩ | ⟨-, hbusy, t', he, ht⟩
  · simp at hx
  · obtain ⟨hdv, hword⟩ := dispatch_starts_permutation hd hx
    exact ⟨hdv, w, rest, hready, hword⟩
  · have huop : t.uop = .idle := by
      rcases ht' with rfl | rfl <;> rcases ht with rfl | rfl <;> simpa using hidle
    rw [huop] at hx
    cases hx
  · have huop : t.uop = t'.uop := by rcases ht with rfl | rfl <;> simp
    exact absurd (huop ▸ hx) (busy_exec_uop_ne_xorin hbusy he)

end Sys2Proof.Machine
end

section
/-!
PROOFS. The invariant of the machine (rules R26, R33, R36): it holds at reset, the dispatch of a word, `IDLE` and
every micro-operation keep it, and so do a step and a run.
-/

namespace Sys2Proof.Machine

/-! ## How the invariant is shown -/

theorem State.Inv.of_idle {s : State} (hbuf : s.buf.wf = true) (hu : s.uop = .idle) (h : s.IdleRules) : s.Inv :=
  ⟨hbuf, fun _ => h, fun hn => absurd hu hn⟩

theorem State.Inv.of_busy {s : State} (hbuf : s.buf.wf = true) (hu : s.uop ≠ .idle) (h : s.BusyRules) : s.Inv :=
  ⟨hbuf, fun hi => absurd hi hu, fun _ => h⟩

theorem State.Inv.idleRules {s : State} (h : s.Inv) (hu : s.uop = .idle) : s.IdleRules := h.2.1 hu

theorem State.Inv.busyRules {s : State} (h : s.Inv) (hu : s.uop ≠ .idle) : s.BusyRules := h.2.2 hu

/-- An empty buffer with `CNT` = 0 and `SEQ` cleared meets the idle rules, in either phase. -/
theorem State.Inv.of_cleared {s : State} (hbuf : s.buf = []) (hcnt : s.cnt = 0) (hu : s.uop = .idle)
    (hrnd : s.rnd = 0) (hfin : s.fin = false) : s.Inv := by
  refine .of_idle (by rw [hbuf]; rfl) hu ⟨?_, fun i _ => ?_, hrnd, hfin, fun _ => ⟨hcnt, hbuf⟩⟩
  · simp [hcnt]
  · rw [hbuf, Memory.read_nil]

/-- The invariant says nothing about the host's moves. -/
theorem State.Inv.dropMove {s : State} (h : s.Inv) : s.dropMove.Inv := h

/-- A state that differs from an idle one in `ERR` and the ports alone. -/
theorem State.Inv.of_ports {s t : State} (h : s.Inv) (hu : s.uop = .idle)
    (ht : t = { s with err := t.err, latch := t.latch, host := t.host, rsp := t.rsp }) : t.Inv := by
  rw [ht]
  exact .of_idle h.1 hu (h.idleRules hu)

theorem State.takeReset_inv (s : State) : s.takeReset.Inv := .of_cleared rfl rfl rfl rfl rfl

/-- Settles O45: the reset state has an empty buffer, `CNT` = 0 and an idle sequencer, and the host's moves are
not part of the invariant. -/
theorem invariantHoldsAtReset : Obligations.InvariantHoldsAtReset :=
  fun _ => .of_cleared rfl rfl rfl rfl rfl

/-! ## The dispatch of a word -/

/-- An accepted `ABSORB` keeps the invariant: it stays idle with one byte more, or it starts the micro-program
at the count 136 (rules R123, R124). -/
theorem State.absorbStep_inv {s : State} (h : s.Inv) (hu : s.uop = .idle) (hdv : s.dv = false) (b : Byte) :
    (s.absorbStep b).Inv := by
  obtain ⟨hcnt, hzero, hrnd, hfin, -⟩ := h.idleRules hu
  have hbuf : (s.buf.write s.cnt.toNat b).wf = true := Memory.wf_write h.1 (by omega) b
  by_cases hfull : s.cnt + 1 = 136
  · rw [State.absorbStep_of_eq hfull]
    refine .of_busy hbuf (by simp) ⟨hdv, rfl, by simp, fun _ => hrnd, fun _ => ?_⟩
    simpa using congrArg BitVec.toNat hfull
  · have hnext : (s.cnt + 1).toNat = s.cnt.toNat + 1 := by bv_omega
    have hlt : s.cnt.toNat + 1 ≤ 135 := by bv_omega
    rw [State.absorbStep_of_ne hfull]
    refine .of_idle hbuf rfl ⟨hnext ▸ hlt, fun i hi => ?_, hrnd, hfin, fun hd => ?_⟩
    · have hi' : s.cnt.toNat + 1 ≤ i := hnext ▸ hi
      exact (Memory.read_write h.1 ..).trans ((if_neg (by omega)).trans (hzero i (by omega)))
    · exact absurd (hd : s.dv = true) (by simp [hdv])

/-- An accepted `FINAL` keeps the invariant: it starts the micro-program on the padded block (rules R127, R130). -/
theorem State.finalStep_inv {s : State} (h : s.Inv) (hu : s.uop = .idle) (hdv : s.dv = false) :
    s.finalStep.Inv := by
  obtain ⟨hcnt, -, hrnd, -, -⟩ := h.idleRules hu
  exact .of_busy (padBlock_wf h.1 hcnt) (by simp) ⟨hdv, rfl, by simp, fun _ => hrnd, fun _ => by simpa using hcnt⟩

/-- The dispatch of a word at an idle core answers, and keeps the invariant: `CNT` is at most 135, so nothing
faults. -/
theorem dispatch_keeps_inv {s : State} (h : s.Inv) (hu : s.uop = .idle) (w : CommandWord) :
    ∃ t, dispatch w s = .next t ∧ t.Inv := by
  obtain ⟨hcnt, -, hrnd, hfin, -⟩ := h.idleRules hu
  rcases dispatch_cases w s with ⟨c, hd⟩ | ⟨-, hd⟩ | ⟨b, -, hdv, -, hd⟩ | ⟨-, hdv, -, hd⟩ | ⟨d, hd⟩ | ⟨hbeyond, -⟩
  · exact ⟨_, hd, h.of_ports hu (by simp [State.reject, State.recordCause, hu])⟩
  · exact ⟨_, hd, .of_cleared rfl rfl rfl hrnd hfin⟩
  · exact ⟨_, hd, State.absorbStep_inv h hu hdv b⟩
  · exact ⟨_, hd, State.finalStep_inv h hu hdv⟩
  · exact ⟨_, hd, h.of_ports hu (by simp [State.answer, hu])⟩
  · omega

/-- `IDLE` answers and keeps the invariant. -/
theorem execIdle_keeps_inv {s : State} (h : s.Inv) (hu : s.uop = .idle) : ∃ t, execIdle s = .next t ∧ t.Inv := by
  rcases execIdle_cases s with ⟨r, -, he⟩ | ⟨w, rest, -, -, he⟩ | ⟨-, -, he⟩
  · exact ⟨_, he, h.of_ports hu rfl⟩
  · rw [he]
    exact dispatch_keeps_inv (s := { s with host := rest }) (h.of_ports hu rfl) hu w
  · exact ⟨_, he, h⟩

/-! ## The micro-program -/

/-- A micro-operation that leads on within the block, and changes the lanes and `SEQ` alone, keeps the
invariant when it enters `XORIN` or `BUFCLR` with `SEQ.rnd` = 0. -/
theorem State.Inv.within_block {s t : State} (h : s.Inv) (hu : s.uop ≠ .idle) (hset : s.uop ≠ .setdv)
    (ht : t = { s with lanes := t.lanes, rnd := t.rnd, uop := t.uop }) (hu' : t.uop ≠ .idle)
    (hset' : t.uop ≠ .setdv) (hrnd' : t.uop = .xorin ∨ t.uop = .bufclr → t.rnd = 0) : t.Inv := by
  obtain ⟨hdv, hlatch, -, -, hcnt⟩ := h.busyRules hu
  rw [ht]
  exact .of_busy h.1 hu' ⟨hdv, hlatch, fun he => absurd he hset', hrnd', fun _ => hcnt hset⟩

/-- `IOTA` leads on within the block, and enters `BUFCLR` with `SEQ.rnd` = 0 (rule R95). -/
theorem afterIota_within_block (r : Fin 24) :
    afterIota r ≠ .idle ∧ afterIota r ≠ .setdv ∧
      (afterIota r = .xorin ∨ afterIota r = .bufclr → nextRound r = 0) := by
  unfold afterIota nextRound
  split <;> simp

/-- `BUFCLR` ends an `ABSORB`, or goes on to `SETDV` in a `FINAL` (rule R122). -/
theorem State.bufclrStep_inv {s : State} (h : s.Inv) (hu : s.uop = .bufclr) : s.bufclrStep.Inv := by
  obtain ⟨hdv, hlatch, -, hrnd, -⟩ := h.busyRules (by simp [hu])
  have hrnd0 : s.rnd = 0 := hrnd (.inr hu)
  cases hfin : s.fin with
  | false => exact .of_cleared rfl rfl (by simp [hfin]) hrnd0 hfin
  | true =>
    exact .of_busy rfl (by simp [hfin]) ⟨hdv, hlatch, fun _ => ⟨hfin, hrnd0, rfl, rfl⟩, fun _ => hrnd0,
      fun hne => absurd (by simp [hfin]) hne⟩

/-- `SETDV` ends a `FINAL` with the buffer cleared (rule R132). -/
theorem State.setdvStep_inv {s : State} (h : s.Inv) (hu : s.uop = .setdv) : s.setdvStep.Inv := by
  obtain ⟨-, -, hset, -, -⟩ := h.busyRules (by simp [hu])
  obtain ⟨-, hrnd, hcnt, hbuf⟩ := hset hu
  exact .of_cleared hbuf hcnt rfl hrnd rfl

/-- The micro-operation in `SEQ.uop`, `IDLE` among them, answers and keeps the invariant. -/
theorem exec_uop_keeps_inv {s : State} (h : s.Inv) : ∃ t, exec s.uop.instr s = .next t ∧ t.Inv := by
  cases hu : s.uop with
  | idle => exact execIdle_keeps_inv h hu
  | bufclr => exact ⟨_, rfl, State.bufclrStep_inv h hu⟩
  | setdv => exact ⟨_, rfl, State.setdvStep_inv h hu⟩
  | iota =>
    obtain ⟨hidle, hset, hrnd⟩ := afterIota_within_block s.rnd
    exact ⟨_, rfl, h.within_block (by simp [hu]) (by simp [hu]) rfl hidle hset hrnd⟩
  | theta | rho | pi | chi | xorin =>
    exact ⟨_, rfl, h.within_block (by simp [hu]) (by simp [hu]) rfl (by simp) (by simp) (by simp)⟩

/-! ## The step and the run -/

/-- Settles O46: a reset leaves the reset state; otherwise the micro-operation in `SEQ.uop` keeps the invariant,
and the end of the host's move does not touch it. -/
theorem stepKeepsTheInvariant : Obligations.StepKeepsTheInvariant := by
  unfold Obligations.StepKeepsTheInvariant
  intro s h
  cases hr : s.resetAsserted with
  | true => exact ⟨_, step_reset hr, s.takeReset_inv⟩
  | false =>
    obtain ⟨t, he, ht⟩ := exec_uop_keeps_inv h
    refine ⟨_, by rw [step_run hr, he, endMove_next], ?_⟩
    split
    · exact ht.dropMove
    · exact ht

/-- A run of any length from a state that meets the invariant does not stop, and ends in such a state. -/
theorem steps_keep_inv (k : Nat) {s : State} (h : s.Inv) : ∃ t, steps k s = .next t ∧ t.Inv := by
  induction k generalizing s with
  | zero => exact ⟨s, rfl, h⟩
  | succ k ih =>
    obtain ⟨u, hstep, hu⟩ := stepKeepsTheInvariant s h
    obtain ⟨t, hrun, ht⟩ := ih hu
    exact ⟨t, (steps_succ hstep).trans hrun, ht⟩

/-- Settles O47: every state of a run from reset meets the invariant, which holds the rules of an idle state. -/
theorem idleStatesMeetTheirRules : Obligations.IdleStatesMeetTheirRules := by
  unfold Obligations.IdleStatesMeetTheirRules
  intro moves k
  obtain ⟨t, hrun, ht⟩ := steps_keep_inv k (invariantHoldsAtReset moves)
  refine ⟨t, hrun, fun hu => ?_⟩
  obtain ⟨hcnt, hzero, hrnd, hfin, hdone⟩ := ht.idleRules hu
  refine ⟨hcnt, hzero, congrArg Fin.val hrnd, hfin, fun hdv => ?_⟩
  obtain ⟨hcnt0, hbuf⟩ := hdone hdv
  exact ⟨hcnt0, fun i => by rw [hbuf]; rfl⟩

end Sys2Proof.Machine
end

section
/-!
PROOFS. The small statements about reset, `INIT`, `RDCR` and the sequencer's code (rules R27, R30, R31, R33, R153,
R154, R157, R161).
-/

namespace Sys2Proof.Machine

/-! ## `INIT` and reset -/

/-- What `INIT` leaves when `SEQ` is already at its reset values (rules R33, R153). -/
theorem State.answer_clearContext_eq_reset {s : State} (hrnd : s.rnd = 0) (hfin : s.fin = false) :
    s.clearContext.answer 0 = { State.reset with latch := some 0x000, host := s.host, rsp := s.rsp } := by
  simp [State.answer, State.clearContext, State.reset, respond, hrnd, hfin]

/-- Settles O9: the reset values by unfolding the reset state, and `INIT` in an idle state by what it leaves. -/
theorem resetStateValues : Obligations.ResetStateValues := by
  unfold Obligations.ResetStateValues
  refine ⟨fun i h => ?_, fun _ _ => rfl, rfl, rfl, rfl, rfl, rfl, rfl, fun s _ hrnd hfin => ?_⟩
  · exact Vector.getElem_replicate h
  · rw [exec_init, State.answer_clearContext_eq_reset hrnd hfin]

/-- Settles O36: the accepted word is dispatched as `INIT`, and the idle rules supply `SEQ.rnd` = 0 and
`SEQ.fin` = 0. -/
theorem initEqualsReset : Obligations.InitEqualsReset := by
  unfold Obligations.InitEqualsReset
  rintro s rest ⟨-, hidle, -⟩ hready
  obtain ⟨-, -, hrnd, hfin, -⟩ := hidle hready.1
  rw [step_ready hready, dispatch_ok (c := .init) (by decide), Command.instr, exec_init,
    State.answer_clearContext_eq_reset (s := { s with host := rest }) hrnd hfin]

/-! ## `RDCR` -/

/-- Settles O34: the two registers that exist, in range by their number. -/
theorem rdcrReadsTheRegister : Obligations.RdcrReadsTheRegister := fun s =>
  ⟨execRdcr_accept (n := 0) (by decide) s, execRdcr_accept (n := 1) (by decide) s⟩

/-! ## The step and the sequencer's code -/

/-- A micro-operation of a busy sequencer always answers. -/
theorem busy_exec_next {s : State} (hu : s.uop ≠ .idle) : ∃ t, exec s.uop.instr s = .next t := by
  cases hs : s.uop with
  | idle => exact absurd hs hu
  | theta | rho | pi | chi | iota | xorin | bufclr | setdv => exact ⟨_, rfl⟩

/-- While the host pauses, `IDLE` has no word to dispatch, so every sequencer code answers. -/
theorem exec_uop_next_of_pausing {s : State} (hp : s.pausing = true) : ∃ t, exec s.uop.instr s = .next t := by
  by_cases hu : s.uop = .idle
  · rw [hu, Uop.instr, exec_idle]
    rcases execIdle_cases s with ⟨_, -, he⟩ | ⟨w, rest, -, hh, -⟩ | ⟨-, -, he⟩
    · exact ⟨_, he⟩
    · simp [State.pausing, hh] at hp
    · exact ⟨_, he⟩
  · exact busy_exec_next hu

theorem decodeTableWord_uop_code (u : Uop) : decodeTableWord 8 u.code.toNat = some u.instr := by
  cases u <;> rfl

/-- Settles O6: the instruction is that of `SEQ.uop`; the end of the move changes something only while the host
pauses, and then the instruction answers. -/
theorem stepRunsTheSequencerCode : Obligations.StepRunsTheSequencerCode := by
  unfold Obligations.StepRunsTheSequencerCode
  intro s hr
  refine ⟨s.uop.instr, decodeTableWord_uop_code s.uop, fun hp => ?_, fun hp => ?_⟩
  · simp [step_run hr, endMove, hp]
  · obtain ⟨t, ht⟩ := exec_uop_next_of_pausing hp
    refine ⟨t, ht, ?_⟩
    rw [step_run hr, ht, endMove_next, if_pos hp, State.dropMove]

end Sys2Proof.Machine
end

section
/-!
PROOFS. What a step that is neither a reset nor an `INIT` keeps of `ERR`, `DV` and the capacity lanes, and that
`ERR` blocks nothing (rules R23, R28, R29, R120).
-/

namespace Sys2Proof.Machine

/-- A command is decoded from no other word than its own code (rules R73, R77). -/
theorem word_eq_of_decodeCommand {w v : CommandWord} {c : Command} (h : decodeCommand w = .ok c)
    (hv : encode c.instr = some (.command v)) : w = v := by
  simpa [hv, eq_comm] using encode_of_decodeCommand h

/-! ## What every step but a reset and an accepted `INIT` keeps -/

/-- What a step from `s` to `t` keeps, when it is neither a reset nor the step that accepts `INIT`. -/
structure KeepsContext (s t : State) : Prop where
  /-- A cause that is recorded stays (rule R29). -/
  err : s.err ≠ 0 → t.err = s.err
  /-- `DV` changes in `SETDV` alone, which leaves 1 (rule R28). -/
  dv : t.dv = s.dv ∨ (s.uop = .setdv ∧ t.dv = true)
  /-- The capacity lanes change in four micro-operations alone (rules R23, R120). -/
  capacity : s.uop ≠ .theta → s.uop ≠ .rho → s.uop ≠ .pi → s.uop ≠ .chi →
    ∀ (k : Nat) (h : k < 25), 17 ≤ k → t.lanes[k] = s.lanes[k]

theorem KeepsContext.of_eq {s t : State} (herr : s.err ≠ 0 → t.err = s.err) (hdv : t.dv = s.dv)
    (hlanes : t.lanes = s.lanes) : KeepsContext s t :=
  ⟨herr, .inl hdv, fun _ _ _ _ k _ _ => by rw [hlanes]⟩

/-- The end of the host's move is no part of the context. -/
theorem KeepsContext.of_endMove {s t t' : State} (h : KeepsContext s t') (ht : t = t' ∨ t = t'.dropMove) :
    KeepsContext s t := by
  rcases ht with rfl | rfl
  · exact h
  · exact ⟨h.err, h.dv, h.capacity⟩

/-- A rejection keeps a cause that is recorded already (rule R184). -/
theorem KeepsContext.reject (s : State) (c : Cause) : KeepsContext s (s.reject c) :=
  .of_eq (fun h => if_neg h) rfl rfl

/-- The dispatch of a word is that of `INIT`, or keeps the context. -/
theorem dispatch_init_or_keepsContext {w : CommandWord} {s t : State} (h : dispatch w s = .next t) :
    (w = 0x1000 ∧ t = s.clearContext.answer 0) ∨ KeepsContext s t := by
  rcases dispatch_cases w s with ⟨c, hd⟩ | ⟨hw, hd⟩ | ⟨b, -, -, -, hd⟩ | ⟨-, -, -, hd⟩ | ⟨d, hd⟩ | ⟨-, hd⟩
  all_goals cases hd.symm.trans h
  · exact .inr (.reject s c)
  · exact .inl ⟨word_eq_of_decodeCommand hw rfl, rfl⟩
  · exact .inr (.of_eq (fun _ => by simp) (by simp) (by simp))
  · exact .inr (.of_eq (fun _ => rfl) rfl rfl)
  · exact .inr (.of_eq (fun _ => rfl) rfl rfl)

theorem capacity_iota (a : Lanes) (r : Fin 24) (k : Nat) (h : k < 25) (hk : 17 ≤ k) : (iota a r)[k] = a[k] :=
  getElem_iota_of_ne a r k h (by omega)

/-- A micro-operation of a busy sequencer keeps the context. -/
theorem busy_keepsContext {s t : State} (hu : s.uop ≠ .idle) (h : exec s.uop.instr s = .next t) :
    KeepsContext s t := by
  cases hs : s.uop with
  | idle => exact absurd hs hu
  | theta | rho | pi | chi =>
    rw [hs] at h
    cases h
    exact ⟨fun _ => rfl, .inl rfl, by simp [hs]⟩
  | iota =>
    rw [hs] at h
    cases h
    exact ⟨fun _ => rfl, .inl rfl, fun _ _ _ _ => capacity_iota s.lanes s.rnd⟩
  | xorin =>
    rw [hs] at h
    cases h
    exact ⟨fun _ => rfl, .inl rfl, fun _ _ _ _ k hlt hk => getElem_xorIn_capacity _ _ k hk hlt⟩
  | bufclr =>
    rw [hs] at h
    cases h
    exact .of_eq (fun _ => rfl) rfl rfl
  | setdv =>
    rw [hs] at h
    cases h
    exact ⟨fun _ => rfl, .inr ⟨hs, rfl⟩, fun _ _ _ _ _ _ _ => rfl⟩

/-- Every step is a reset, the step that accepts `INIT`, or one that keeps the context. -/
theorem step_reset_init_or_keepsContext {s t : State} (h : step s = .next t) :
    (s.resetAsserted = true ∧ t = s.takeReset) ∨
    (∃ rest, s.ReadyFor 0x1000 rest ∧ t = ({ s with host := rest } : State).clearContext.answer 0) ∨
    KeepsContext s t := by
  rcases step_cases h with hreset | ⟨-, w, rest, hready, hd⟩ | ⟨-, -, t', ht', ht⟩ | ⟨-, hbusy, t', he, ht⟩
  · exact .inl hreset
  · rcases dispatch_init_or_keepsContext hd with ⟨rfl, rfl⟩ | hk
    · exact .inr (.inl ⟨rest, hready, rfl⟩)
    · exact .inr (.inr ⟨hk.err, hk.dv, hk.capacity⟩)
  · have hk : KeepsContext s t' := by
      rcases ht' with rfl | rfl <;> exact .of_eq (fun _ => rfl) rfl rfl
    exact .inr (.inr (hk.of_endMove ht))
  · exact .inr (.inr ((busy_keepsContext hbusy he).of_endMove ht))

/-- Settles O51: a reset and `INIT` clear `ERR`, and every other step keeps the recorded cause. -/
theorem errKeepsTheFirstCause : Obligations.ErrKeepsTheFirstCause := by
  unfold Obligations.ErrKeepsTheFirstCause
  intro s t herr h
  rcases step_reset_init_or_keepsContext h with ⟨hr, rfl⟩ | ⟨rest, hready, rfl⟩ | hk
  · exact .inr ⟨rfl, .inl hr⟩
  · exact .inr ⟨rfl, .inr ⟨rest, hready⟩⟩
  · exact .inl (hk.err herr)

/-- Settles O53: a reset and `INIT` leave `DV` = 0, and every other step but `SETDV` keeps it; `SETDV` leaves 1. -/
theorem dvChangesOnlyByItsEvents : Obligations.DvChangesOnlyByItsEvents := by
  unfold Obligations.DvChangesOnlyByItsEvents
  intro s t h
  rcases step_reset_init_or_keepsContext h with ⟨hr, rfl⟩ | ⟨rest, hready, rfl⟩ | hk
  · exact ⟨fun _ _ => .inl hr, fun _ hd => absurd hd (by simp)⟩
  · exact ⟨fun _ _ => .inr ⟨rest, hready⟩, fun _ hd => absurd hd (by simp)⟩
  · rcases hk.dv with hdv | ⟨hu, hdv⟩
    · exact ⟨fun h1 h0 => by simp [hdv, h1] at h0, fun h0 h1 => by simp [hdv, h0] at h1⟩
    · exact ⟨fun _ h0 => by simp [hdv] at h0, fun _ _ => hu⟩

/-- Settles O54: of the steps that are neither a reset nor an `INIT`, only the four excluded micro-operations
change a capacity lane. -/
theorem capacityChangesOnlyByPermutation : Obligations.CapacityChangesOnlyByPermutation := by
  unfold Obligations.CapacityChangesOnlyByPermutation
  intro s t h hr hinit htheta hrho hpi hchi
  rcases step_reset_init_or_keepsContext h with ⟨hr', -⟩ | ⟨rest, hready, -⟩ | hk
  · simp [hr'] at hr
  · exact absurd hready (hinit rest)
  · exact hk.capacity htheta hrho hpi hchi

/-! ## `ERR` blocks nothing -/

/-- Two states that differ in `ERR` at most. -/
def SameButErr (t t' : State) : Prop := t' = { t with err := t'.err }

theorem SameButErr.latch_eq {t t' : State} (h : SameButErr t t') : t'.latch = t.latch := by
  rw [h]

/-- An accepted `ABSORB` reads no `ERR`. -/
theorem State.absorbStep_withErr (s : State) (e : BitVec 2) (b : Byte) :
    SameButErr (s.absorbStep b) (({ s with err := e } : State).absorbStep b) := by
  by_cases h : s.cnt + 1 = 136
  · rw [State.absorbStep_of_eq h, State.absorbStep_of_eq (s := { s with err := e }) h]
    rfl
  · rw [State.absorbStep_of_ne h, State.absorbStep_of_ne (s := { s with err := e }) h]
    rfl

/-- `RDCR 1` answers `CNT`, which is not `ERR`. -/
theorem controlRegister_withErr (s : State) (e : BitVec 2) {k : Fin 2} (hk : k ≠ 0) :
    controlRegister { s with err := e } k = controlRegister s k := by
  rw [controlRegister, controlRegister, if_neg hk, if_neg hk]

/-- With another value in `ERR` a command has the same effect and the same response, but for `ERR` itself and
the response of `RDCR 0`. -/
theorem exec_withErr {c : Command} {s t : State} (e : BitVec 2) (h : exec c.instr s = .next t) :
    ∃ t', exec c.instr { s with err := e } = .next t' ∧
      (SameButErr t t' ∨ (c = .rdcr 0 ∧ t' = { t with err := t'.err, latch := t'.latch })) := by
  cases c with
  | init =>
    cases h
    exact ⟨_, rfl, .inl rfl⟩
  | absorb b =>
    rcases execAbsorb_cases b s with ⟨hdv, he⟩ | ⟨hdv, hc, he⟩ | ⟨-, -, he⟩
    all_goals cases he.symm.trans h
    · exact ⟨_, execAbsorb_done (s := { s with err := e }) hdv b, .inl rfl⟩
    · exact ⟨_, execAbsorb_accept (s := { s with err := e }) hdv hc b, .inl (s.absorbStep_withErr e b)⟩
  | final =>
    rcases execFinal_cases s with ⟨hdv, he⟩ | ⟨hdv, hc, he⟩ | ⟨-, -, he⟩
    all_goals cases he.symm.trans h
    · exact ⟨_, execFinal_done (s := { s with err := e }) hdv, .inl rfl⟩
    · exact ⟨_, execFinal_accept (s := { s with err := e }) hdv hc, .inl rfl⟩
  | rddig i =>
    rcases execRddig_cases i s with ⟨hi, he⟩ | ⟨hi, hdv, he⟩ | ⟨hi, hdv, he⟩
    all_goals cases he.symm.trans h
    · exact ⟨_, execRddig_range hi _, .inl rfl⟩
    · exact ⟨_, execRddig_accept (s := { s with err := e }) hi hdv, .inl rfl⟩
    · exact ⟨_, execRddig_early (s := { s with err := e }) hi hdv, .inl rfl⟩
  | rdcr n =>
    rcases execRdcr_cases n s with ⟨hn, he⟩ | ⟨hn, he⟩
    all_goals cases he.symm.trans h
    · exact ⟨_, execRdcr_range hn _, .inl rfl⟩
    · refine ⟨_, execRdcr_accept hn _, ?_⟩
      by_cases h0 : n = 0
      · exact .inr ⟨by rw [h0], rfl⟩
      · have hk : (⟨n.toNat, hn⟩ : Fin 2) ≠ 0 := by simpa [Fin.ext_iff, BitVec.toNat_eq] using h0
        rw [controlRegister_withErr s e hk]
        exact .inl rfl

/-- The dispatch of a word with another value in `ERR`. -/
theorem dispatch_withErr {w : CommandWord} {s t : State} (e : BitVec 2) (h : dispatch w s = .next t) :
    ∃ t', dispatch w { s with err := e } = .next t' ∧
      (SameButErr t t' ∨ (w = 0x5000 ∧ t' = { t with err := t'.err, latch := t'.latch })) := by
  cases hw : decodeCommand w with
  | error i =>
    rw [dispatch_error hw] at h
    cases h
    exact ⟨_, dispatch_error hw _, .inl rfl⟩
  | ok c =>
    rw [dispatch_ok hw] at h
    obtain ⟨t', he, hsame | ⟨rfl, ht'⟩⟩ := exec_withErr e h
    · exact ⟨t', (dispatch_ok hw _).trans he, .inl hsame⟩
    · exact ⟨t', (dispatch_ok hw _).trans he, .inr ⟨word_eq_of_decodeCommand hw rfl, ht'⟩⟩

/-- Settles O52: the step is the dispatch of the word, which changes `ERR` alone but for `RDCR 0`. -/
theorem errIsOnlyARecord : Obligations.ErrIsOnlyARecord := by
  unfold Obligations.ErrIsOnlyARecord
  intro s t e w rest hready h
  have hready' : ({ s with err := e } : State).ReadyFor w rest := hready
  rw [step_ready hready] at h
  obtain ⟨t', hd, hsame⟩ := dispatch_withErr e h
  refine ⟨t', (step_ready hready').trans hd, ?_⟩
  rcases hsame with hsame | ⟨hw, ht'⟩
  · refine ⟨?_, fun _ => hsame.latch_eq⟩
    rw [hsame.latch_eq]
    exact hsame
  · exact ⟨ht', fun hne => absurd hw hne⟩

end Sys2Proof.Machine
end

section
/-!
PROOFS. Byte order (rules R51, R52): an image byte by value, eight buffer bytes as one word, and the word XORed into
a lane.
-/

namespace Sys2Proof.Machine

/-- Settles O24: the value of a bit field is the value shifted right, modulo the field's size. -/
theorem imageByteIsLittleEndian : Obligations.ImageByteIsLittleEndian :=
  fun _ _ => BitVec.extractLsb'_toNat ..

/-- Byte `j` of a little-endian word is the byte at the `j`th address (rule R52). -/
theorem extractLsb'_littleEndian (f : Nat → Byte) (i : Nat) {j : Nat} (hj : j < 8) :
    (littleEndian f i).extractLsb' (8 * j) 8 = f (i + j) := by
  apply BitVec.eq_of_getLsbD_eq
  intro z hz
  have hbyte : (8 * j + z) / 8 = j := by omega
  have hbit : (8 * j + z) % 8 = z := by omega
  rw [BitVec.getLsbD_extractLsb', getLsbD_littleEndian f i _ (by omega), hbyte, hbit]
  simp [hz]

/-- The low `n` bytes of a lane, each shifted to its place, sum up to the lane modulo `2 ^ (8 * n)`. -/
theorem foldl_bytes_eq_toNat_mod {v : Lane} {byteAt : Nat → Byte} (n : Nat)
    (h : ∀ j, j < n → v.extractLsb' (8 * j) 8 = byteAt j) :
    (List.range n).foldl (fun acc j => acc + ((byteAt j).toNat <<< (8 * j))) 0 = v.toNat % 2 ^ (8 * n) := by
  induction n with
  | zero => simp [Nat.mod_one]
  | succ n ih =>
    have hbyte : (byteAt n).toNat = v.toNat / 2 ^ (8 * n) % 2 ^ 8 := by
      rw [← h n n.lt_succ_self, BitVec.extractLsb'_toNat, Nat.shiftRight_eq_div_pow]
    rw [List.range_succ, List.foldl_append, ih fun j hj => h j (hj.trans n.lt_succ_self), List.foldl_cons,
      List.foldl_nil, hbyte, Nat.shiftLeft_eq, Nat.mul_succ, Nat.pow_add, Nat.mod_mul,
      Nat.mul_comm (2 ^ (8 * n))]

/-- Byte `j` of a word of `BUF` (rule R52). -/
theorem extractLsb'_blockWord (m : Memory) (k : Nat) {j : Nat} (hj : j < 8) :
    (blockWord m.read k).extractLsb' (8 * j) 8 = m.read (8 * k + j) :=
  extractLsb'_littleEndian m.read (8 * k) hj

/-- Settles O23: the bytes of the word are the buffer's, a word is the sum of its bytes in their places, and an XOR
goes byte by byte. -/
theorem bufferWordIsLittleEndian : Obligations.BufferWordIsLittleEndian := by
  unfold Obligations.BufferWordIsLittleEndian
  intro m k _
  refine ⟨?_, fun j hj => ⟨extractLsb'_blockWord m k hj, fun a => ?_⟩⟩
  · rw [foldl_bytes_eq_toNat_mod 8 fun j hj => extractLsb'_blockWord m k hj]
    exact (Nat.mod_eq_of_lt (blockWord m.read k).isLt).symm
  · rw [BitVec.extractLsb'_xor, extractLsb'_blockWord m k hj]

end Sys2Proof.Machine
end

section
/-!
PROOFS. What the commands leave alone and what they do not show (rules R24, R56, R57, R58, R136, R184): the words
that are rejected or only read, and the answers of two states that look the same to the host.
-/

namespace Sys2Proof.Machine

/-! ## Rejections and reads -/

/-- From `s` to `t` nothing changes but `ERR` and the response latch. -/
def OnlyErrAndLatchChange (s t : State) : Prop := t = { s with err := t.err, latch := t.latch }

theorem OnlyErrAndLatchChange.reject {s : State} (hu : s.uop = .idle) (c : Cause) :
    OnlyErrAndLatchChange s (s.reject c) := by
  simp [OnlyErrAndLatchChange, State.reject, State.recordCause, hu]

theorem OnlyErrAndLatchChange.answer {s : State} (hu : s.uop = .idle) (d : Byte) :
    OnlyErrAndLatchChange s (s.answer d) := by
  simp [OnlyErrAndLatchChange, State.answer, hu]

/-- The words that change the message or the digest: `INIT`, and in the absorbing phase `ABSORB` and `FINAL`
(rules R56, R155), by their value. -/
def EffectiveWord (w : CommandWord) (dv : Bool) : Prop :=
  w = 0x1000 ∨ (dv = false ∧ ((0x2000 ≤ w.toNat ∧ w.toNat ≤ 0x20FF) ∨ w = 0x3000))

/-- The dispatch of any other word at an idle core is a rejection or an answer. -/
theorem dispatch_only_err_latch {w : CommandWord} {s : State} (hu : s.uop = .idle) (hw : ¬EffectiveWord w s.dv) :
    ∃ t, dispatch w s = .next t ∧ OnlyErrAndLatchChange s t := by
  cases hc : decodeCommand w with
  | error e => exact ⟨_, dispatch_error hc s, .reject hu _⟩
  | ok c =>
    rw [dispatch_ok hc]
    cases c with
    | init => exact absurd (.inl (word_eq_of_decodeCommand hc rfl)) hw
    | absorb b =>
      cases hdv : s.dv with
      | false => exact absurd (.inr ⟨hdv, .inl (absorbWord_range hc)⟩) hw
      | true => exact ⟨_, execAbsorb_done hdv b, .reject hu _⟩
    | final =>
      cases hdv : s.dv with
      | false => exact absurd (.inr ⟨hdv, .inr (finalWord_eq hc)⟩) hw
      | true => exact ⟨_, execFinal_done hdv, .reject hu _⟩
    | rddig i =>
      rcases execRddig_cases i s with ⟨-, he⟩ | ⟨_, -, he⟩ | ⟨-, -, he⟩
      · exact ⟨_, he, .reject hu _⟩
      · exact ⟨_, he, .answer hu _⟩
      · exact ⟨_, he, .reject hu _⟩
    | rdcr n =>
      rcases execRdcr_cases n s with ⟨-, he⟩ | ⟨_, he⟩
      · exact ⟨_, he, .reject hu _⟩
      · exact ⟨_, he, .answer hu _⟩

/-- A word that is rejected in the phase of `dv`, and a word that names a read, is none of them (rules R77, R155). -/
theorem not_effectiveWord {w : CommandWord} {dv : Bool}
    (h : illegalWord w ∨ outOfRangeWord w ∨ outOfPhaseWord w dv ∨ (0x4000 ≤ w.toNat ∧ w.toNat ≤ 0x50FF)) :
    ¬EffectiveWord w dv := by
  unfold illegalWord outOfRangeWord outOfPhaseWord at h
  rintro (rfl | ⟨rfl, habsorb | rfl⟩)
  · simp at h
  · simp only [Bool.false_eq_true, false_and, false_or, true_and] at h
    omega
  · simp at h

/-- Settles O57: the step is the dispatch of the word, and none of these words is one that changes the message or
the digest. -/
theorem readsAndRejectionsAreHarmless : Obligations.ReadsAndRejectionsAreHarmless := by
  unfold Obligations.ReadsAndRejectionsAreHarmless
  intro s w rest hready hword
  have hu : s.uop = .idle := hready.1
  rw [step_ready hready]
  exact dispatch_only_err_latch (s := { s with host := rest }) hu (not_effectiveWord hword)

/-! ## The hidden state -/

/-- Two states that show the same: the response that waits, `ERR`, `DV` and `CNT`. -/
def SameAnswer (t t' : State) : Prop :=
  t.latch = t'.latch ∧ t.err = t'.err ∧ t.dv = t'.dv ∧ t.cnt = t'.cnt

section
variable {s s' : State} (h : SameView s s')
include h

theorem SameView.reject (c : Cause) : SameAnswer (s.reject c) (s'.reject c) := by
  obtain ⟨hdv, herr, hcnt, -⟩ := h
  exact ⟨rfl, by simp [herr], hdv, hcnt⟩

theorem SameView.answer {d d' : Byte} (hd : d = d') : SameAnswer (s.answer d) (s'.answer d') := by
  obtain ⟨hdv, herr, hcnt, -⟩ := h
  exact ⟨by rw [hd]; rfl, herr, hdv, hcnt⟩

theorem SameView.absorbStep (b : Byte) : SameAnswer (s.absorbStep b) (s'.absorbStep b) := by
  obtain ⟨hdv, herr, hcnt, -⟩ := h
  exact ⟨by simp, by simp [herr], by simp [hdv], by simp [hcnt]⟩

theorem SameView.finalStep : SameAnswer s.finalStep s'.finalStep := by
  obtain ⟨hdv, herr, hcnt, -⟩ := h
  exact ⟨rfl, herr, hdv, hcnt⟩

/-- The control registers hold nothing that is hidden (rules R27, R30, R57). -/
theorem SameView.controlRegister_eq (n : Fin 2) : controlRegister s n = controlRegister s' n := by
  obtain ⟨hdv, herr, hcnt, -⟩ := h
  simp only [controlRegister, statusByte, hdv, herr, hcnt]

/-- A command that answers in one of two states with the same view answers in the other, and alike. -/
theorem SameView.exec {c : Command} {t : State} (he : exec c.instr s = .next t) :
    ∃ t', exec c.instr s' = .next t' ∧ SameAnswer t t' := by
  have ⟨hdv, _, hcnt, hdigest⟩ := h
  cases c with
  | init =>
    cases he
    exact ⟨_, rfl, rfl, rfl, rfl, rfl⟩
  | absorb b =>
    rcases execAbsorb_cases b s with ⟨hd, hx⟩ | ⟨hd, hc, hx⟩ | ⟨-, -, hx⟩
    all_goals cases hx.symm.trans he
    · exact ⟨_, execAbsorb_done (hdv ▸ hd) b, h.reject _⟩
    · exact ⟨_, execAbsorb_accept (hdv ▸ hd) (hcnt ▸ hc) b, h.absorbStep b⟩
  | final =>
    rcases execFinal_cases s with ⟨hd, hx⟩ | ⟨hd, hc, hx⟩ | ⟨-, -, hx⟩
    all_goals cases hx.symm.trans he
    · exact ⟨_, execFinal_done (hdv ▸ hd), h.reject _⟩
    · exact ⟨_, execFinal_accept (hdv ▸ hd) (hcnt ▸ hc), h.finalStep⟩
  | rddig i =>
    rcases execRddig_cases i s with ⟨hi, hx⟩ | ⟨hi, hd, hx⟩ | ⟨hi, hd, hx⟩
    all_goals cases hx.symm.trans he
    · exact ⟨_, execRddig_range hi s', h.reject _⟩
    · exact ⟨_, execRddig_accept hi (hdv ▸ hd), h.answer (hdigest hd _)⟩
    · exact ⟨_, execRddig_early hi (hdv ▸ hd), h.reject _⟩
  | rdcr n =>
    rcases execRdcr_cases n s with ⟨hn, hx⟩ | ⟨hn, hx⟩
    all_goals cases hx.symm.trans he
    · exact ⟨_, execRdcr_range hn s', h.reject _⟩
    · exact ⟨_, execRdcr_accept hn s', h.answer (h.controlRegister_eq _)⟩

/-- The dispatch of one word in two states with the same view. -/
theorem SameView.dispatch {w : CommandWord} {t : State} (hd : dispatch w s = .next t) :
    ∃ t', dispatch w s' = .next t' ∧ SameAnswer t t' := by
  cases hc : decodeCommand w with
  | error e =>
    cases (dispatch_error hc s).symm.trans hd
    exact ⟨_, dispatch_error hc s', h.reject _⟩
  | ok c =>
    rw [dispatch_ok hc] at hd ⊢
    exact h.exec hd

end

/-- Settles O56: both steps are the dispatch of the same word, and taking the word off the port leaves the view. -/
theorem hiddenStateDoesNotReachTheHost : Obligations.HiddenStateDoesNotReachTheHost := by
  unfold Obligations.HiddenStateDoesNotReachTheHost
  intro s s' t t' w rest rest' hready hready' hview h h'
  rw [step_ready hready] at h
  rw [step_ready hready'] at h'
  have hview' : SameView { s with host := rest } { s' with host := rest' } := hview
  obtain ⟨u, hu, hsame⟩ := hview'.dispatch h
  cases hu.symm.trans h'
  exact hsame

end Sys2Proof.Machine
end

section
/-!
PROOFS. Decoding and encoding are inverse to each other (rules R72, R73, R75, R77, R78): for the command words
through the fields of a word and its value, for the sequencer codes by their table.
-/

namespace Sys2Proof.Machine

/-! ## Command words -/

/-- The code of a command decodes to the command, whatever the operand: the decoder reads back the fields that
the word is made of (rules R73, R75). -/
theorem decodeCommand_of_encode {w : CommandWord} {c : Command} (h : encode c.instr = some (.command w)) :
    decodeCommand w = .ok c := by
  cases c <;> cases h <;> simp [decodeCommand]

/-- A word names a command exactly when it is the command's code (rules R73, R76). -/
theorem decodeCommand_eq_ok_iff {w v : CommandWord} {c : Command} (hv : encode c.instr = some (.command v)) :
    decodeCommand w = .ok c ↔ w = v :=
  ⟨fun h => word_eq_of_decodeCommand h hv, fun h => h ▸ decodeCommand_of_encode hv⟩

theorem decodeCode_command_eq_some {w : CommandWord} {i : Instr} :
    decodeCode (.command w) = some i ↔ ∃ c, decodeCommand w = .ok c ∧ c.instr = i := by
  cases h : decodeCommand w <;> simp [decodeCode, h]

theorem encode_command (c : Command) : ∃ w, encode c.instr = some (.command w) := by
  cases c <;> exact ⟨_, rfl⟩

/-! ## Both directions -/

theorem decodeCode_of_encode_command (c : Command) {k : Code} (h : encode c.instr = some k) :
    decodeCode k = some c.instr := by
  obtain ⟨w, hw⟩ := encode_command c
  cases hw.symm.trans h
  exact decodeCode_command_eq_some.2 ⟨c, decodeCommand_of_encode hw, rfl⟩

/-- Settles O2: a command by its word; a sequencer code by its row of the table; a composite has no code. -/
theorem decodeOfEncodeIsTheInstruction : Obligations.DecodeOfEncodeIsTheInstruction := by
  unfold Obligations.DecodeOfEncodeIsTheInstruction
  intro i c h
  cases i with
  | init => exact decodeCode_of_encode_command .init h
  | absorb b => exact decodeCode_of_encode_command (.absorb b) h
  | final => exact decodeCode_of_encode_command .final h
  | rddig i => exact decodeCode_of_encode_command (.rddig i) h
  | rdcr n => exact decodeCode_of_encode_command (.rdcr n) h
  | idle | theta | rho | pi | chi | iota | xorin | bufclr | setdv => cases h; rfl
  | round | permute => cases h

/-- A sequencer code that decodes is the code of what it decodes to, for each of the 16 values (rule R78). -/
theorem encode_of_decodeUop : ∀ c : BitVec 4, ∀ i ∈ decodeUop c, encode i = some (.uop c) := by decide

/-- Settles O3: a word through the command it names, a sequencer code through the table. -/
theorem encodeOfDecodeIsTheCode : Obligations.EncodeOfDecodeIsTheCode := by
  unfold Obligations.EncodeOfDecodeIsTheCode
  intro i c h
  cases c with
  | command w =>
    obtain ⟨k, hk, rfl⟩ := decodeCode_command_eq_some.1 h
    exact encode_of_decodeCommand hk
  | uop u => exact encode_of_decodeUop u i h

/-- Settles O1: the decoder evaluated on each word. -/
theorem specWordsDecode : Obligations.SpecWordsDecode := by
  unfold Obligations.SpecWordsDecode
  decide

/-! ## Words by their value -/

/-- A word is a word of the opcode map exactly when it has its value (rule R73). -/
theorem eq_commandWord_iff {w : CommandWord} {op : BitVec 4} {imm : Byte} :
    w = commandWord op imm ↔ w.toNat = 4096 * op.toNat + imm.toNat := by
  rw [← commandWord_toNat, BitVec.toNat_eq]

theorem decodeCommand_init_iff {w : CommandWord} : decodeCommand w = .ok .init ↔ w = 0x1000 :=
  decodeCommand_eq_ok_iff rfl

theorem decodeCommand_absorb_iff {w : CommandWord} {b : Byte} :
    decodeCommand w = .ok (.absorb b) ↔ w.toNat = 0x2000 + b.toNat :=
  (decodeCommand_eq_ok_iff rfl).trans eq_commandWord_iff

theorem decodeCommand_final_iff {w : CommandWord} : decodeCommand w = .ok .final ↔ w = 0x3000 :=
  decodeCommand_eq_ok_iff rfl

theorem decodeCommand_rddig_iff {w : CommandWord} {i : Byte} :
    decodeCommand w = .ok (.rddig i) ↔ w.toNat = 0x4000 + i.toNat :=
  (decodeCommand_eq_ok_iff rfl).trans eq_commandWord_iff

theorem decodeCommand_rdcr_iff {w : CommandWord} {n : Byte} :
    decodeCommand w = .ok (.rdcr n) ↔ w.toNat = 0x5000 + n.toNat :=
  (decodeCommand_eq_ok_iff rfl).trans eq_commandWord_iff

/-- The values that an operand byte reaches from a word's first value on. -/
theorem exists_byte_offset {n k : Nat} : (∃ b : Byte, n = k + b.toNat) ↔ k ≤ n ∧ n ≤ k + 255 := by
  constructor
  · rintro ⟨b, rfl⟩
    omega
  · rintro ⟨hlo, hhi⟩
    exact ⟨BitVec.ofNat 8 (n - k), by rw [BitVec.toNat_ofNat]; omega⟩

/-- The words that name a command are those that are not illegal (rules R76, R77). -/
theorem exists_decodeCommand_ok_iff {w : CommandWord} : (∃ c, decodeCommand w = .ok c) ↔ ¬illegalWord w := by
  rw [illegalWord, not_not, ← decodeCommand_init_iff, ← exists_byte_offset, ← decodeCommand_final_iff,
    ← exists_byte_offset, ← exists_byte_offset]
  simp only [← decodeCommand_absorb_iff, ← decodeCommand_rddig_iff, ← decodeCommand_rdcr_iff]
  constructor
  · rintro ⟨_ | b | _ | i | n, h⟩ <;> simp [h]
  · rintro (h | ⟨b, h⟩ | h | ⟨i, h⟩ | ⟨n, h⟩) <;> exact ⟨_, h⟩

/-- Settles O4: each command by the value of its words, and the other words by exclusion. -/
theorem commandWordsByValue : Obligations.CommandWordsByValue := by
  unfold Obligations.CommandWordsByValue
  refine fun w => ⟨decodeCommand_init_iff, fun _ => decodeCommand_absorb_iff, decodeCommand_final_iff,
    fun _ => decodeCommand_rddig_iff, fun _ => decodeCommand_rdcr_iff, ?_⟩
  rw [← not_iff_not, ← exists_decodeCommand_ok_iff]
  cases decodeCommand w <;> simp

/-! ## The step on a word that decodes -/

/-- A row of 16 bits with a word's value is the word. -/
theorem decodeTableWord_command (w : CommandWord) : decodeTableWord 16 w.toNat = decodeCode (.command w) := by
  simp [decodeTableWord, tableCode, w.isLt]

/-- Settles O5: a ready core dispatches the word, and the dispatch of a word that names a command is the
command's meaning. -/
theorem stepRunsThePresentedCommand : Obligations.StepRunsThePresentedCommand := by
  unfold Obligations.StepRunsThePresentedCommand
  intro s w rest i hready h
  rw [decodeTableWord_command] at h
  obtain ⟨c, hc, rfl⟩ := decodeCode_command_eq_some.1 h
  rw [step_ready hready, dispatch_ok hc]

end Sys2Proof.Machine
end

section
/-!
PROOFS. The response port and the command port (rules R70, R71, R74, R160, R163, R210): what a step does to the
latch, to the responses delivered and to the host's moves.
-/

namespace Sys2Proof.Machine

/-! ## The legal response words -/

/-- An `OK` response is one of 0x000 to 0x0FF (rule R74). -/
theorem legalResponse_ok (d : Byte) : LegalResponse (respond 0 d) := by
  have hvalue : (respond 0 d).toNat = d.toNat := (BitVec.toNat_append ..).trans (by simp)
  exact .inl (by omega)

/-- The response of a rejection is 0x100, 0x200 or 0x300 (rules R74, R181). -/
theorem legalResponse_reject (c : Cause) : LegalResponse (respond c.code 0) := by
  cases c <;> exact .inr (by decide)

/-- The responses of two states with the same latch and the same record are legal alike. -/
theorem State.ResponsesLegal.of_ports {s t : State} (h : s.ResponsesLegal) (hlatch : t.latch = s.latch)
    (hrsp : t.rsp = s.rsp) : t.ResponsesLegal := by
  unfold State.ResponsesLegal
  rwa [hlatch, hrsp]

/-- A delivery moves a response and makes none. -/
theorem State.ResponsesLegal.deliver {s : State} (h : s.ResponsesLegal) : s.deliver.ResponsesLegal := by
  rintro r (hr | hr)
  · cases hr
  · rcases List.mem_append.1 hr with hr | hr
    · exact h r (.inr hr)
    · exact h r (.inl (Option.mem_toList.1 hr))

/-- Settles O44: at reset no response waits and none has been delivered. -/
theorem responsesLegalAtReset : Obligations.ResponsesLegalAtReset := by
  unfold Obligations.ResponsesLegalAtReset
  rintro moves r (h | h) <;> cases h

/-! ## What the parts of a step do to the ports -/

/-- The dispatch of a word latches one legal response, delivers none and takes no move of the host. -/
theorem dispatch_latches {w : CommandWord} {s t : State} (h : dispatch w s = .next t) :
    (∃ r, t.latch = some r ∧ LegalResponse r) ∧ t.rsp = s.rsp ∧ t.host = s.host := by
  rcases dispatch_cases w s with ⟨c, hd⟩ | ⟨-, hd⟩ | ⟨b, -, -, -, hd⟩ | ⟨-, -, -, hd⟩ | ⟨d, hd⟩ | ⟨-, hd⟩
  all_goals cases hd.symm.trans h
  · exact ⟨⟨_, rfl, legalResponse_reject c⟩, rfl, rfl⟩
  · exact ⟨⟨_, rfl, legalResponse_ok 0⟩, rfl, rfl⟩
  · exact ⟨⟨_, s.absorbStep_latch b, legalResponse_ok 0⟩, by simp, by simp⟩
  · exact ⟨⟨_, rfl, legalResponse_ok 0⟩, rfl, rfl⟩
  · exact ⟨⟨_, rfl, legalResponse_ok d⟩, rfl, rfl⟩

/-- A micro-operation of a busy sequencer touches no port. -/
theorem busy_keeps_ports {s t : State} (hu : s.uop ≠ .idle) (h : exec s.uop.instr s = .next t) :
    t.latch = s.latch ∧ t.rsp = s.rsp ∧ t.host = s.host := by
  cases hs : s.uop with
  | idle => exact absurd hs hu
  | theta | rho | pi | chi | iota | xorin | bufclr | setdv =>
    rw [hs] at h
    cases h
    exact ⟨rfl, rfl, rfl⟩

theorem execIdle_deliver {s : State} {r : ResponseWord} (h : s.latch = some r) :
    execIdle s = .next s.deliver := by
  simp [execIdle, h]

theorem execIdle_wait {s : State} (hl : s.latch = none) (hh : ∀ w rest, s.host ≠ .present w :: rest) :
    execIdle s = .next s := by
  rcases execIdle_cases s with ⟨r, hr, -⟩ | ⟨w, rest, -, hp, -⟩ | ⟨-, -, he⟩
  · simp [hl] at hr
  · exact absurd hp (hh w rest)
  · exact he

/-- A step without a reset whose instruction answers. -/
theorem step_of_exec {s t : State} (hr : s.resetAsserted = false) (he : exec s.uop.instr s = .next t) :
    step s = .next (if s.pausing then t.dropMove else t) := by
  rw [step_run hr, he, endMove_next]

/-- A step without a reset that delivers a response (rule R163). -/
theorem step_deliver {s : State} {r : ResponseWord} (hr : s.resetAsserted = false) (hu : s.uop = .idle)
    (hl : s.latch = some r) : step s = .next (if s.pausing then s.deliver.dropMove else s.deliver) :=
  step_of_exec hr (by rw [hu]; exact execIdle_deliver hl)

/-- A step without a reset that waits: a pause of the host is over, and nothing else changes (rule R195). -/
theorem step_wait {s : State} (hr : s.resetAsserted = false) (hu : s.uop = .idle) (hl : s.latch = none)
    (hh : ∀ w rest, s.host ≠ .present w :: rest) : step s = .next { s with host := s.host.tail } := by
  rw [step_of_exec hr (by rw [hu]; exact execIdle_wait hl hh)]
  rcases host_move_cases s with ⟨hr', -⟩ | ⟨-, hp, -⟩ | ⟨-, -, w, rest, hw⟩ | ⟨-, hp, hnil⟩
  · simp [hr] at hr'
  · rw [if_pos hp, State.dropMove]
  · exact absurd hw (hh w rest)
  · have htail : s.host.tail = s.host := by rw [hnil]; rfl
    rw [if_neg (by simp [hp]), htail]

/-! ## One response for each word -/

/-- Settles O42: a word is dispatched, a waiting response is delivered, a busy sequencer leaves the ports alone, and
otherwise the core waits. -/
theorem oneResponsePerAcceptedWord : Obligations.OneResponsePerAcceptedWord := by
  unfold Obligations.OneResponsePerAcceptedWord
  intro s t hr h
  refine ⟨fun w rest hready => ?_, fun r hu hl => ?_, fun hu => ?_, fun hu hl hh => ?_⟩
  · rw [step_ready hready] at h
    obtain ⟨⟨r, hl, -⟩, hrsp, hhost⟩ := dispatch_latches h
    exact ⟨hrsp, by simp [hl], hhost⟩
  · cases (step_deliver hr hu hl).symm.trans h
    split <;> simp [hl, hu]
  · obtain ⟨t', he⟩ := busy_exec_next hu
    obtain ⟨hlatch, hrsp, -⟩ := busy_keeps_ports hu he
    cases (step_of_exec hr he).symm.trans h
    split <;> exact ⟨hrsp, hlatch⟩
  · cases (step_wait hr hu hl hh).symm.trans h
    rfl

/-- Settles O43: a reset drops a response, a dispatch latches a legal one, a delivery moves one, and no other step
touches them. -/
theorem responsesStayLegal : Obligations.ResponsesStayLegal := by
  unfold Obligations.ResponsesStayLegal
  intro s t hlegal h
  have of_endMove {t'} (h' : t'.ResponsesLegal) (ht : t = t' ∨ t = t'.dropMove) : t.ResponsesLegal := by
    rcases ht with rfl | rfl
    · exact h'
    · exact h'.of_ports rfl rfl
  rcases step_cases h with ⟨-, rfl⟩ | ⟨-, w, rest, -, hd⟩ | ⟨-, -, t', ht', ht⟩ | ⟨-, hbusy, t', he, ht⟩
  · rintro r (hr | hr)
    · cases hr
    · exact hlegal r (.inr hr)
  · obtain ⟨⟨r, hlatch, hr⟩, hrsp, -⟩ := dispatch_latches hd
    rintro r' (hr' | hr')
    · cases hlatch.symm.trans hr'
      exact hr
    · exact hlegal r' (.inr (hrsp ▸ hr'))
  · rcases ht' with rfl | rfl
    · exact of_endMove hlegal ht
    · exact of_endMove hlegal.deliver ht
  · obtain ⟨hlatch, hrsp, -⟩ := busy_keeps_ports hbusy he
    exact of_endMove (hlegal.of_ports hlatch hrsp) ht

/-! ## `cmd_ready` -/

theorem Uop.code_eq_zero_iff {u : Uop} : u.code = 0 ↔ u = .idle := by
  cases u <;> decide

theorem resetAsserted_eq_false_iff {s : State} : s.resetAsserted = false ↔ ∀ rest, s.host ≠ .reset :: rest := by
  rcases host_move_cases s with ⟨h, -, rest, hh⟩ | ⟨h, -, rest, hh⟩ | ⟨h, -, w, rest, hh⟩ | ⟨h, -, hh⟩ <;>
    simp [h, hh]

/-- A core that is busy or has a response to deliver holds the word that the host presents (rule R70). -/
theorem step_holds_word {s : State} {w : CommandWord} {rest : List HostMove} (hh : s.host = .present w :: rest)
    (hbusy : s.uop ≠ .idle ∨ s.latch ≠ none) : ∃ t, step s = .next t ∧ t.host = s.host := by
  have hr : s.resetAsserted = false := resetAsserted_eq_false_iff.2 (by simp [hh])
  have hp : s.pausing = false := by simp [State.pausing, hh]
  by_cases hu : s.uop = .idle
  · obtain ⟨r, hl⟩ := Option.ne_none_iff_exists'.1 (hbusy.resolve_left (not_not.2 hu))
    exact ⟨_, step_deliver hr hu hl, by simp [hp]⟩
  · obtain ⟨t, he⟩ := busy_exec_next hu
    obtain ⟨-, -, hhost⟩ := busy_keeps_ports hu he
    exact ⟨_, step_of_exec hr he, by simp [hp, hhost]⟩

/-- Settles O60: a ready core dispatches the word, and any other holds it. -/
theorem cmdReadyDecidesAcceptance : Obligations.CmdReadyDecidesAcceptance := by
  unfold Obligations.CmdReadyDecidesAcceptance
  refine ⟨fun s => ?_, fun s t w rest hh h => ⟨fun hready => ?_, fun hready => ?_⟩⟩
  · rw [cmdReady_iff, Uop.code_eq_zero_iff, resetAsserted_eq_false_iff]
  · obtain ⟨hu, hl, -⟩ := cmdReady_iff.1 hready
    rw [step_ready ⟨hu, hl, hh⟩] at h
    obtain ⟨-, -, hhost⟩ := dispatch_latches h
    exact hhost
  · have hr : s.resetAsserted = false := resetAsserted_eq_false_iff.2 (by simp [hh])
    have hbusy : s.uop ≠ .idle ∨ s.latch ≠ none := by
      rw [← not_and_or]
      rintro ⟨hu, hl⟩
      simp [cmdReady_iff.2 ⟨hu, hl, hr⟩] at hready
    obtain ⟨t', h', hhost⟩ := step_holds_word hh hbusy
    cases h'.symm.trans h
    exact hhost

/-! ## Accepted words -/

/-- From `s` to `t` the word `w` is answered `OK`: `ERR` stays but that `INIT` clears it, and the data is 0 but
in a read (rules R74, R153). -/
def AnsweredOk (w : CommandWord) (s t : State) : Prop :=
  t.host = s.host ∧ t.rsp = s.rsp ∧ t.err = (if w = 0x1000 then 0 else s.err) ∧
    ∃ d : Byte, t.latch = some (respond 0 d) ∧ (w.toNat < 0x4000 → d = 0)

section
variable {w : CommandWord} {s : State}

theorem AnsweredOk.init : AnsweredOk 0x1000 s (s.clearContext.answer 0) :=
  ⟨rfl, rfl, rfl, 0, rfl, fun _ => rfl⟩

theorem ne_init_of_lt (hw : 0x1000 < w.toNat) : w ≠ 0x1000 := by
  rintro rfl
  exact absurd hw (by decide)

theorem AnsweredOk.absorbStep (hw : 0x1000 < w.toNat) (b : Byte) : AnsweredOk w s (s.absorbStep b) :=
  ⟨by simp, by simp, (s.absorbStep_err b).trans (if_neg (ne_init_of_lt hw)).symm, 0, by simp, fun _ => rfl⟩

theorem AnsweredOk.finalStep : AnsweredOk 0x3000 s s.finalStep :=
  ⟨rfl, rfl, rfl, 0, rfl, fun _ => rfl⟩

theorem AnsweredOk.read (hw : 0x4000 ≤ w.toNat) (d : Byte) : AnsweredOk w s (s.answer d) :=
  ⟨rfl, rfl, (if_neg (ne_init_of_lt (by omega))).symm, d, rfl, fun hlt => absurd hw (by omega)⟩

/-- The dispatch of a word that meets no rejection condition: in range and in its phase, each command is accepted
(rules R76, R77, R155). -/
theorem dispatch_accepted (hcnt : s.cnt.toNat ≤ 135) (hlegal : ¬illegalWord w) (hrange : ¬outOfRangeWord w)
    (hphase : ¬outOfPhaseWord w s.dv) : ∃ t, dispatch w s = .next t ∧ AnsweredOk w s t := by
  obtain ⟨c, hc⟩ := exists_decodeCommand_ok_iff.2 hlegal
  rw [dispatch_ok hc]
  unfold outOfRangeWord at hrange
  unfold outOfPhaseWord at hphase
  cases c with
  | init =>
    cases decodeCommand_init_iff.1 hc
    exact ⟨_, rfl, .init⟩
  | absorb b =>
    have hw := decodeCommand_absorb_iff.1 hc
    have hdv : s.dv = false := Bool.of_not_eq_true fun hd => hphase (.inl ⟨hd, .inl (by omega)⟩)
    exact ⟨_, execAbsorb_accept hdv (by omega) b, .absorbStep (by omega) b⟩
  | final =>
    cases decodeCommand_final_iff.1 hc
    have hdv : s.dv = false := Bool.of_not_eq_true fun hd => hphase (.inl ⟨hd, .inr rfl⟩)
    exact ⟨_, execFinal_accept hdv (by omega), .finalStep⟩
  | rddig i =>
    have hw := decodeCommand_rddig_iff.1 hc
    have hi : i.toNat < 32 := by omega
    have hdv : s.dv = true := Bool.of_not_eq_false fun hd => hphase (.inr ⟨hd, by omega⟩)
    exact ⟨_, execRddig_accept hi hdv, .read (by omega) _⟩
  | rdcr n =>
    have hw := decodeCommand_rdcr_iff.1 hc
    have hn : n.toNat < 2 := by omega
    exact ⟨_, execRdcr_accept hn s, .read (by omega) _⟩

end

/-- Settles O40: a ready core dispatches the word, and the dispatch accepts it. -/
theorem acceptedWordIsAnsweredOk : Obligations.AcceptedWordIsAnsweredOk := by
  unfold Obligations.AcceptedWordIsAnsweredOk
  intro s w rest hready hcnt hlegal hrange hphase
  rw [step_ready hready]
  exact dispatch_accepted (s := { s with host := rest }) hcnt hlegal hrange hphase

end Sys2Proof.Machine
end

section
/-!
PROOFS. The rotate primitive and the five step mappings, their affine and their bitwise laws (rules R90 to R95,
R106).
-/

namespace Sys2Proof.Machine

/-! ## The rotate primitive -/

@[simp] theorem rotl64_zero (v : Lane) : rotl64 v 0 = v := if_pos rfl

/-- In its range `rotl64` is the library's rotation. -/
theorem rotl64_eq_rotateLeft (v : Lane) {n : Nat} (hn : n < 64) : rotl64 v n = v.rotateLeft n := by
  rw [BitVec.rotateLeft_def, Nat.mod_eq_of_lt hn]
  by_cases h : n = 0
  · subst h
    simp [BitVec.ushiftRight_eq_zero]
  · exact if_neg h

theorem toNat_rotl64 (v : Lane) {n : Nat} (hn : n < 64) :
    (rotl64 v n).toNat = ((v.toNat <<< n) ||| (v.toNat >>> (64 - n))) &&& 0xFFFFFFFFFFFFFFFF := by
  have hlow : v.toNat >>> (64 - n) < 2 ^ 64 := Nat.lt_of_le_of_lt (Nat.shiftRight_le ..) v.isLt
  rw [rotl64_eq_rotateLeft v hn, BitVec.toNat_rotateLeft, Nat.mod_eq_of_lt hn,
    Nat.and_two_pow_sub_one_eq_mod _ 64, Nat.or_mod_two_pow, Nat.mod_eq_of_lt hlow]

theorem getLsbD_rotl64 (v : Lane) {n z : Nat} (hn : n < 64) (hz : z < 64) :
    (rotl64 v n).getLsbD z = v.getLsbD ((z + 64 - n) % 64) := by
  rw [rotl64_eq_rotateLeft v hn, BitVec.getLsbD_rotateLeft_of_le hn]
  by_cases h : z < n
  · simp only [h, decide_true, cond_true]
    congr 1
    omega
  · simp only [h, hz, decide_false, decide_true, cond_false, Bool.true_and]
    congr 1
    omega

theorem getLsbD_rotl64_add (v : Lane) {n z : Nat} (hn : n < 64) (hz : z < 64) :
    (rotl64 v n).getLsbD ((z + n) % 64) = v.getLsbD z := by
  rw [getLsbD_rotl64 v hn (by omega)]
  congr 1
  omega

theorem rotl64_xor (v w : Lane) {n : Nat} (hn : n < 64) : rotl64 (v ^^^ w) n = rotl64 v n ^^^ rotl64 w n := by
  apply BitVec.eq_of_getLsbD_eq
  intro z hz
  simp only [BitVec.getLsbD_xor, getLsbD_rotl64 _ hn hz]

/-- Settles O11: the rotation on naturals and bit by bit. -/
theorem rotateLeftFormula : Obligations.RotateLeftFormula := by
  unfold Obligations.RotateLeftFormula
  refine ⟨fun i => Nat.le_of_lt_succ (rotationOffsets_lt_fin i), fun v n hn => ?_⟩
  have hn : n < 64 := Nat.lt_succ_of_le hn
  exact ⟨fun h0 => h0 ▸ rotl64_zero v, fun _ => toNat_rotl64 v hn,
    fun z hz => ⟨getLsbD_rotl64 v hn hz, getLsbD_rotl64_add v hn hz⟩⟩

/-! ## The step mappings -/

/-- `x - 1` of rule R91 as the model writes it, modulo 5. -/
theorem column_sub_one : ∀ x : Fin 5, x - 1 = x + 4 := by decide

/-- Settles O12: the column parities and the masks of the model are the `C` and `D` of the rule. -/
theorem thetaResult : Obligations.ThetaResult := by
  unfold Obligations.ThetaResult
  intro s
  refine ⟨s.thetaStep, exec_theta s, rfl, columnParity s.lanes, thetaMask s.lanes, fun _ => rfl, fun x => ?_,
    lane_theta s.lanes⟩
  rw [column_sub_one, thetaMask]

/-- Settles O13: lane by lane, and the offset of lane 0 is 0. -/
theorem rhoResult : Obligations.RhoResult := by
  unfold Obligations.RhoResult
  intro s
  refine ⟨s.rhoStep, exec_rho s, rfl, getElem_rho s.lanes, ?_⟩
  calc (rho s.lanes)[0] = rotl64 s.lanes[0] rotationOffsets[0] := getElem_rho s.lanes 0 (by decide)
    _ = s.lanes[0] := rotl64_zero _

/-- The two readings of the pi mapping are inverse: the destination of (x, y) has x in its source (rule R93). -/
theorem pi_source_column : ∀ x y : Fin 5, y + 3 * (2 * x + 3 * y) = x := by decide

/-- Pi from the source side (rule R93). -/
theorem lane_pi_destination (a : Lanes) (x y : Fin 5) : lane (pi a) y (2 * x + 3 * y) = lane a x y := by
  rw [lane_pi, pi_source_column]

/-- Settles O14: both sides of the mapping; the source column, computed from the destination, makes it injective. -/
theorem piResult : Obligations.PiResult := by
  unfold Obligations.PiResult
  intro s
  refine ⟨s.piStep, exec_pi s, rfl, lane_pi_destination s.lanes, lane_pi s.lanes, fun x y x' y' hy hrow => ?_⟩
  calc x = y + 3 * (2 * x + 3 * y) := (pi_source_column x y).symm
    _ = y' + 3 * (2 * x' + 3 * y') := by rw [hrow, hy]
    _ = x' := pi_source_column x' y'

/-- Settles O15: the law of chi, lane by lane. -/
theorem chiResult : Obligations.ChiResult := by
  unfold Obligations.ChiResult
  exact fun s => ⟨s.chiStep, exec_chi s, rfl, lane_chi s.lanes⟩

theorem nextRound_val_of_lt {r : Fin 24} (h : r.val < 23) : (nextRound r).val = r.val + 1 := by
  rw [nextRound, dif_pos h]

theorem nextRound_of_last {r : Fin 24} (h : r.val = 23) : nextRound r = 0 := dif_neg (by omega)

theorem afterIota_of_lt {r : Fin 24} (h : r.val < 23) : afterIota r = .theta := if_pos h

theorem afterIota_of_last {r : Fin 24} (h : r.val = 23) : afterIota r = .bufclr := if_neg (by omega)

/-- Settles O16: lane 0 takes the constant, the others stay; round 23 is the last. -/
theorem iotaResult : Obligations.IotaResult := by
  unfold Obligations.IotaResult
  intro s
  refine ⟨s.iotaStep, exec_iota s, rfl, getElem_iota_zero s.lanes s.rnd, getElem_iota_of_ne s.lanes s.rnd, ?_, ?_⟩
  · exact fun h => ⟨nextRound_val_of_lt h, afterIota_of_lt h⟩
  · exact fun h => ⟨congrArg Fin.val (nextRound_of_last h), afterIota_of_last h⟩

/-! ## Affine over XOR, bit by bit (rule R106) -/

section
variable {a b e : Lanes}

/-- XOR read by coordinates. -/
theorem lane_xor_of_getElem (h : ∀ (i : Nat) (hi : i < 25), e[i] = a[i] ^^^ b[i]) (x y : Fin 5) :
    lane e x y = lane a x y ^^^ lane b x y :=
  h _ (by omega)

theorem getElem_rho_xor (h : ∀ (i : Nat) (hi : i < 25), e[i] = a[i] ^^^ b[i]) (i : Nat) (hi : i < 25) :
    (rho e)[i] = (rho a)[i] ^^^ (rho b)[i] := by
  simp only [getElem_rho, h, rotl64_xor _ _ (rotationOffsets_lt i hi)]

/-- Iota is affine and not linear: the constant appears once. -/
theorem getElem_iota_xor (h : ∀ (i : Nat) (hi : i < 25), e[i] = a[i] ^^^ b[i]) (r : Fin 24) (i : Nat)
    (hi : i < 25) : (iota e r)[i] = (iota a r)[i] ^^^ b[i] := by
  by_cases h0 : i = 0
  · subst h0
    rw [getElem_iota_zero, getElem_iota_zero, h]
    ac_rfl
  · rw [getElem_iota_of_ne e r i hi h0, getElem_iota_of_ne a r i hi h0, h]

section
variable (h : ∀ x y, lane e x y = lane a x y ^^^ lane b x y)
include h

/-- XOR read by flat index. -/
theorem getElem_xor_of_lane (i : Nat) (hi : i < 25) :
    e[i] = a[i] ^^^ b[i] := by
  simp only [getElem_eq_lane, h]

theorem columnParity_xor (x : Fin 5) :
    columnParity e x = columnParity a x ^^^ columnParity b x := by
  simp only [columnParity, h]
  ac_rfl

theorem thetaMask_xor (x : Fin 5) :
    thetaMask e x = thetaMask a x ^^^ thetaMask b x := by
  simp only [thetaMask, columnParity_xor h, rotl64_xor _ _ (by decide : 1 < 64)]
  ac_rfl

theorem lane_theta_xor (x y : Fin 5) :
    lane (theta e) x y = lane (theta a) x y ^^^ lane (theta b) x y := by
  simp only [lane_theta, h, thetaMask_xor h]
  ac_rfl

theorem lane_pi_xor (x y : Fin 5) :
    lane (pi e) x y = lane (pi a) x y ^^^ lane (pi b) x y := by
  simp only [lane_pi, h]

end

theorem getLsbD_lane_chi_congr {x y : Fin 5} {z : Nat} (h0 : (lane a x y).getLsbD z = (lane b x y).getLsbD z)
    (h1 : (lane a (x + 1) y).getLsbD z = (lane b (x + 1) y).getLsbD z)
    (h2 : (lane a (x + 2) y).getLsbD z = (lane b (x + 2) y).getLsbD z) :
    (lane (chi a) x y).getLsbD z = (lane (chi b) x y).getLsbD z := by
  simp only [lane_chi, BitVec.getLsbD_xor, BitVec.getLsbD_and, BitVec.getLsbD_not, h0, h1, h2]

end

/-- Settles O17: the XOR law of each mapping, by coordinates for theta and pi and by flat index for rho and iota. -/
theorem stepMappingsAffineOrBitwise : Obligations.StepMappingsAffineOrBitwise := by
  unfold Obligations.StepMappingsAffineOrBitwise
  refine ⟨fun a b e h => ?_, fun _ _ _ _ _ => getLsbD_lane_chi_congr⟩
  have hxy := lane_xor_of_getElem h
  exact ⟨getElem_xor_of_lane (lane_theta_xor hxy), getElem_rho_xor h, getElem_xor_of_lane (lane_pi_xor hxy),
    getElem_iota_xor h⟩

end Sys2Proof.Machine
end

section
/-!
PROOFS. The printed tables and their derivations, and the fused form of rho and pi (rules R96 to R99, R104).
-/

namespace Sys2Proof.Machine

/-! ## The round constants -/

theorem getLsbD_one_shiftLeft {k z : Nat} (hz : z < 64) : (1#64 <<< k).getLsbD z = true ↔ z = k := by
  rw [← BitVec.twoPow_eq, BitVec.getLsbD_twoPow, Bool.and_eq_true, decide_eq_true_eq, decide_eq_true_eq]
  omega

/-- The bits of a word into which a loop sets bit `2^j - 1` for each `j` that `p` selects. -/
theorem getLsbD_foldl_setBit (p : Nat → Bool) (js : List Nat) (w : Lane) {z : Nat} (hz : z < 64) :
    (js.foldl (fun w j => if p j then w ||| (1#64 <<< (2 ^ j - 1)) else w) w).getLsbD z = true ↔
      w.getLsbD z = true ∨ ∃ j ∈ js, z = 2 ^ j - 1 ∧ p j = true := by
  induction js generalizing w with
  | nil => simp
  | cons j js ih =>
    rw [List.foldl_cons, ih]
    cases hp : p j with
    | false => simp [hp]
    | true => simp only [if_pos, BitVec.getLsbD_or, Bool.or_eq_true, getLsbD_one_shiftLeft hz, or_assoc,
        List.exists_mem_cons_iff, hp, and_true]

/-- The derivation of rule R97, bit by bit. -/
theorem getLsbD_derivedRoundConstant (r : Nat) {z : Nat} (hz : z < 64) :
    (derivedRoundConstant r).getLsbD z = true ↔
      ∃ j : Fin 7, z = 2 ^ j.val - 1 ∧ rcBit (j.val + 7 * r) = true := by
  rw [derivedRoundConstant, getLsbD_foldl_setBit (fun j => rcBit (j + 7 * r)) _ _ hz]
  simp [Fin.exists_iff, and_left_comm]

/-- Rule R96 against rule R97, over the 24 entries. -/
theorem roundConstants_eq_derived : ∀ r : Fin 24, roundConstants[r] = derivedRoundConstant r.val := by
  decide

/-! ## The walk of the pi mapping -/

/-- The flat index of the position of the walk (rules R11, R99). -/
def walkIndex (t : Nat) : Fin 25 := ⟨(piWalk t).1.val + 5 * (piWalk t).2.val, by omega⟩

theorem getElem_of_eq_walkIndex (a : Lanes) {i : Fin 25} {t : Nat} (h : i = walkIndex t) :
    a[i] = lane a (piWalk t).1 (piWalk t).2 := by
  subst h
  rfl

/-- `PILN` follows the walk (rule R104). -/
theorem pilnTable_eq_walkIndex : ∀ t : Fin 24, pilnTable[t] = walkIndex (t.val + 1) := by decide

theorem rotcTable_eq_triangular : ∀ t : Fin 24, rotcTable[t] = (t.val + 1) * (t.val + 2) / 2 % 64 := by decide

/-- The offset at the position before the move (rules R98, R104). -/
theorem rotcTable_eq_offset : ∀ t : Fin 24, rotcTable[t] = rotationOffsets[walkIndex t.val] := by decide

theorem walk_visits : ∀ i : Fin 25, i ≠ 0 → ∃ t : Fin 24, walkIndex t.val = i := by decide

/-- Settles O18: the two tables against their derivations, the bits of a constant by the loop that sets them. -/
theorem tablesEqualTheirDerivations : Obligations.TablesEqualTheirDerivations := by
  unfold Obligations.TablesEqualTheirDerivations
  refine ⟨roundConstants_eq_derived, fun r z => ?_, rfl, fun t => ?_, fun i hi => ?_⟩
  · rw [roundConstants_eq_derived, getLsbD_derivedRoundConstant _ z.isLt]
  · exact (rotcTable_eq_offset t).symm.trans (rotcTable_eq_triangular t)
  · obtain ⟨t, ht⟩ := walk_visits i hi
    exact ⟨t, congrArg Fin.val ht⟩

/-! ## The fused form -/

theorem pilnTable_injective : ∀ t u : Fin 24, pilnTable[t] = pilnTable[u] → t = u := by decide

theorem pilnTable_visits : ∀ i : Fin 25, i ≠ 0 → ∃ t : Fin 24, pilnTable[t] = i := by decide

theorem lane_rho (a : Lanes) (x y : Fin 5) :
    lane (rho a) x y = rotl64 (lane a x y) (rotationOffsets[x.val + 5 * y.val]) :=
  getElem_rho ..

/-- Pi after rho moves the lane at a position of the walk, rotated, to the next position. -/
theorem pi_rho_at_piln (a : Lanes) (t : Fin 24) :
    (pi (rho a))[pilnTable[t]] = rotl64 a[walkIndex t.val] rotcTable[t] := by
  rw [getElem_of_eq_walkIndex _ (pilnTable_eq_walkIndex t), piWalk, lane_pi_destination, lane_rho,
    rotcTable_eq_offset]
  rfl

/-- Lane 0 stays in its place and is not rotated. -/
theorem pi_rho_zero (a : Lanes) : (pi (rho a))[0] = a[0] := by
  calc (pi (rho a))[0] = lane (rho a) 0 0 := lane_pi (rho a) 0 0
    _ = rotl64 (lane a 0 0) 0 := lane_rho a 0 0
    _ = a[0] := rotl64_zero _

/-- What the first `n` turns of the fused loop have done: the lane in hand is the old lane at the walk's position,
the places already visited hold their lanes of pi after rho, and the others are untouched. -/
structure FusedUpTo (a : Lanes) (n : Nat) (p : Lanes × Lane) : Prop where
  inHand : p.2 = a[walkIndex n]
  placed : ∀ t : Fin 24, t.val < n → p.1[pilnTable[t]] = (pi (rho a))[pilnTable[t]]
  untouched : ∀ i : Fin 25, (∀ t : Fin 24, t.val < n → pilnTable[t] ≠ i) → p.1[i] = a[i]

/-- One turn of the fused loop, at a place not visited before. -/
theorem FusedUpTo.turn {a : Lanes} {p : Lanes × Lane} {t : Fin 24} (h : FusedUpTo a t.val p) :
    FusedUpTo a (t.val + 1) (fusedTurn p t) := by
  have hother : ∀ i : Fin 25, pilnTable[t] ≠ i → (fusedTurn p t).1[i] = p.1[i] := fun i hi =>
    Vector.getElem_set_ne pilnTable[t].isLt i.isLt fun he => hi (Fin.ext he)
  refine ⟨?_, fun u hu => ?_, fun i hi => ?_⟩
  · have hfresh : p.1[pilnTable[t]] = a[pilnTable[t]] :=
      h.untouched _ fun u hu he => absurd (pilnTable_injective u t he) (Fin.ne_of_lt hu)
    exact hfresh.trans (getElem_of_eq_walkIndex a (pilnTable_eq_walkIndex t))
  · by_cases hut : u = t
    · subst hut
      rw [pi_rho_at_piln, ← h.inHand]
      exact Vector.getElem_set_self ..
    · rw [hother _ fun he => hut (pilnTable_injective t u he).symm]
      exact h.placed u (by omega)
  · rw [hother i (hi t (Nat.lt_succ_self _))]
    exact h.untouched i fun u hu => hi u (Nat.lt_succ_of_lt hu)

theorem fusedUpTo_turns (a : Lanes) {n : Nat} (hn : n ≤ 24) : FusedUpTo a n (turns fusedTurn (a, a[1]) n) := by
  induction n with
  | zero => exact ⟨rfl, fun _ h => absurd h (Nat.not_lt_zero _), fun _ _ => rfl⟩
  | succ n ih =>
    rw [turns_succ _ _ hn]
    exact (ih (Nat.le_of_lt hn)).turn (t := ⟨n, hn⟩)

theorem rhoPi_eq (a : Lanes) : rhoPi a = pi (rho a) := by
  have h : FusedUpTo a 24 (turns fusedTurn (a, a[1]) 24) := fusedUpTo_turns a (Nat.le_refl _)
  apply Vector.ext
  intro i hi
  by_cases h0 : i = 0
  · subst h0
    rw [pi_rho_zero]
    exact h.untouched 0 (by decide)
  · obtain ⟨t, ht⟩ := pilnTable_visits ⟨i, hi⟩ fun he => h0 (congrArg Fin.val he)
    have hplaced := h.placed t t.isLt
    simp only [ht] at hplaced
    exact hplaced

/-- Settles O19: the loop's invariant after 24 turns, and the tables by the walk. -/
theorem fusedRhoPiIsPiAfterRho : Obligations.FusedRhoPiIsPiAfterRho := by
  unfold Obligations.FusedRhoPiIsPiAfterRho
  exact ⟨rhoPi_eq, fun t => congrArg Fin.val (pilnTable_eq_walkIndex t),
    fun t => ⟨rotcTable_eq_triangular t, rotcTable_eq_offset t⟩⟩

end Sys2Proof.Machine
end

section
/-!
PROOFS. The sequencer runs the rounds of `PERMUTE`, five steps each (rules R100, R101, R161).
-/

namespace Sys2Proof.Machine

/-! ## The lanes of the loop -/

theorem turns_roundStep_lanes (s : State) (n : Nat) :
    (turns State.roundStep s n).lanes = turns roundFunction s.lanes n := by
  induction n with
  | zero => rfl
  | succ n ih =>
    unfold turns
    split
    · rw [State.roundStep_lanes, ih]
    · exact ih

@[simp] theorem State.permuteStep_lanes (s : State) : s.permuteStep.lanes = keccakF s.lanes := by
  rw [State.permuteStep, turns_roundStep_lanes, keccakF]

/-! ## Steps of a busy sequencer -/

/-- `k` steps from `s` end in `t`, but that the host's pauses are over meanwhile (notes/assumptions/2.md). -/
def BusyReaches (k : Nat) (s t : State) : Prop :=
  steps k s = .next { t with host := dropPauses k s.host }

theorem BusyReaches.refl (s : State) : BusyReaches 0 s s := by
  rw [BusyReaches, dropPauses_zero, steps]

/-- One more micro-operation: it does not look at the host's moves. -/
theorem BusyReaches.succ {k : Nat} {s t u : State} (hm : HostMove.reset ∉ s.host) (h : BusyReaches k s t)
    (he : ∀ moves, exec t.uop.instr { t with host := moves } = .next { u with host := moves }) :
    BusyReaches (k + 1) s u := by
  have hstep := step_busy (s := { t with host := dropPauses k s.host }) (reset_notMem_dropPauses hm k) (he _) rfl
  rw [BusyReaches, steps_add 1 h, steps_succ hstep, steps, dropPauses_add]

/-- The five micro-operations of one round, with the round's index in `SEQ.rnd` (rule R100). -/
theorem BusyReaches.round {k : Nat} {s t : State} (hm : HostMove.reset ∉ s.host) (h : BusyReaches k s t)
    (hu : t.uop = .theta) {r : Fin 24} (hr : t.rnd = r) : BusyReaches (k + 5) s (t.roundStep r) := by
  subst hr
  have htheta : BusyReaches (k + 1) s t.thetaStep := h.succ hm fun _ => by rw [hu]; rfl
  have hrho : BusyReaches (k + 2) s t.thetaStep.rhoStep := htheta.succ hm fun _ => rfl
  have hpi : BusyReaches (k + 3) s t.thetaStep.rhoStep.piStep := hrho.succ hm fun _ => rfl
  have hchi : BusyReaches (k + 4) s t.thetaStep.rhoStep.piStep.chiStep := hpi.succ hm fun _ => rfl
  exact hchi.succ hm fun _ => rfl

/-- Before round `n` of the loop the sequencer is at `THETA` with `SEQ.rnd` = n. -/
theorem turns_roundStep_seq {s : State} (hu : s.uop = .theta) (hr : s.rnd = 0) {n : Nat} (hn : n < 24) :
    (turns State.roundStep s n).uop = .theta ∧ (turns State.roundStep s n).rnd = ⟨n, hn⟩ := by
  cases n with
  | zero => exact ⟨hu, hr⟩
  | succ n =>
    have hlt : n < 23 := Nat.lt_of_succ_lt_succ hn
    rw [turns_succ _ _ (Nat.lt_of_succ_lt hn), State.roundStep_uop, State.roundStep_rnd]
    exact ⟨afterIota_of_lt hlt, Fin.ext (nextRound_val_of_lt hlt)⟩

theorem busyReaches_rounds {s : State} (hu : s.uop = .theta) (hr : s.rnd = 0) (hm : HostMove.reset ∉ s.host)
    {n : Nat} (hn : n ≤ 24) : BusyReaches (5 * n) s (turns State.roundStep s n) := by
  induction n with
  | zero => exact .refl s
  | succ n ih =>
    obtain ⟨huop, hrnd⟩ := turns_roundStep_seq hu hr hn
    rw [turns_succ _ _ hn]
    exact (ih (Nat.le_of_lt hn)).round hm huop hrnd

/-- Settles O22: the 24 rounds of five steps each. -/
theorem sequencerPermutesIn120Steps : Obligations.SequencerPermutesIn120Steps := by
  unfold Obligations.SequencerPermutesIn120Steps
  exact fun s hu hr hm => ⟨s.permuteStep, busyReaches_rounds hu hr hm (Nat.le_refl 24), exec_permute s,
    s.permuteStep_lanes⟩

end Sys2Proof.Machine
end

section
/-!
PROOFS. The meanings of the sponge unit (rules R121 to R124, R127 to R134): `XORIN`, `BUFCLR`, `SETDV`, the append of
`ABSORB`, the padding of `FINAL` in its two formulations, and the digest byte of `RDDIG`.
-/

namespace Sys2Proof.Machine

/-! ## The micro-operations -/

/-- Settles O25: the laws of `XorIn` byte by byte, and lane by lane on both sides of the end of the rate. -/
theorem xorinResult : Obligations.XorinResult := by
  unfold Obligations.XorinResult
  intro s
  refine ⟨s.xorinStep, exec_xorin s, rfl, fun j hj => ?_, fun j hj => ?_, fun k _ hk => ?_, fun k h hk => ?_⟩
  · rw [State.xorinStep_lanes, imageByte_xorIn, if_pos hj]
  · rw [State.xorinStep_lanes, imageByte_xorIn, if_neg (by omega)]
  · exact getElem_xorIn_rate _ _ k (by omega)
  · exact getElem_xorIn_capacity _ _ k hk h

/-- Settles O26: the cleared buffer lists no byte, and `SEQ.fin` alone decides the successor. -/
theorem bufclrResult : Obligations.BufclrResult := by
  unfold Obligations.BufclrResult
  intro s
  exact ⟨s.bufclrStep, exec_bufclr s, rfl, Memory.read_nil, fun h => if_pos h, fun h => if_neg (by simp [h])⟩

/-- Settles O27: the transition of `SETDV` is the rule's three assignments. -/
theorem setdvResult : Obligations.SetdvResult := exec_setdv

/-! ## The append of `ABSORB` -/

/-- `CNT` after an append inside the buffer does not wrap around (rule R123). -/
theorem toNat_cnt_succ {c : BitVec 8} (h : c.toNat ≤ 135) : (c + 1).toNat = c.toNat + 1 := by
  bv_omega

/-- The byte that fills the buffer is the one appended at 135 (rule R124). -/
theorem cnt_succ_eq_136_iff {c : BitVec 8} : c + 1 = 136 ↔ c.toNat = 135 := by
  bv_omega

/-- Settles O28: a read after the write at `CNT`; the appended byte fills the buffer exactly at `CNT` = 135. -/
theorem absorbAppendsTheByte : Obligations.AbsorbAppendsTheByte := by
  unfold Obligations.AbsorbAppendsTheByte
  intro s b hdv hc hwf
  refine ⟨s.absorbStep b, execAbsorb_accept hdv (by omega) b, ?_, ?_, fun i hi => ?_, ?_, fun hlt => ?_, fun heq => ?_⟩
  · by_cases hfull : s.cnt + 1 = 136
    · rw [State.absorbStep_of_eq hfull]; rfl
    · rw [State.absorbStep_of_ne hfull]; rfl
  · rw [State.absorbStep_buf, Memory.read_write hwf, if_pos rfl]
  · rw [State.absorbStep_buf, Memory.read_write hwf, if_neg hi]
  · rw [State.absorbStep_cnt, toNat_cnt_succ hc]
  · rw [State.absorbStep_of_ne (mt cnt_succ_eq_136_iff.1 (Nat.ne_of_lt hlt))]
    exact ⟨rfl, rfl⟩
  · rw [State.absorbStep_of_eq (cnt_succ_eq_136_iff.2 heq)]
    exact ⟨rfl, rfl⟩

/-! ## The padding -/

/-- Settles O29: every byte of the padded block, in the four ranges of the rule. -/
theorem finalPadsTheBlock : Obligations.FinalPadsTheBlock := by
  unfold Obligations.FinalPadsTheBlock
  intro s hdv hc hwf
  have hread := read_padBlock hwf hc
  refine ⟨s.finalStep, execFinal_accept hdv (by omega), rfl, fun i hi => ?_, fun hlt => ⟨?_, ?_⟩, fun heq => ?_,
    fun i hlo hhi => ?_⟩ <;> rw [State.finalStep_buf, hread]
  · rw [if_pos hi]
  · rw [if_neg (Nat.lt_irrefl _), if_pos rfl, if_neg (Nat.ne_of_lt hlt)]
  · rw [if_neg (by omega), if_neg (by omega), if_pos rfl]
  · rw [heq, if_neg (Nat.lt_irrefl _), if_pos rfl, if_pos rfl]
  · rw [if_neg (by omega), if_neg (by omega), if_neg (by omega)]

section
variable {m : Memory} (hwf : m.wf = true) {c : Nat} (hc : c ≤ 135)
include hwf hc

theorem padBlockByOr_wf : (padBlockByOr m c).wf = true :=
  Memory.wf_write (Memory.wf_write (Memory.wf_zeroFill hwf _ _ (by simp only [Config.rate]; omega)) (by omega) _)
    (by decide) _

/-- The other formulation gives, byte by byte, the block that `read_padBlock` describes: the OR of 0x01 meets a
zeroed byte, and the OR of 0x80 meets 0x00 or, for c = 135, that 0x01 (rule R127). -/
theorem read_padBlockByOr (i : Nat) : (padBlockByOr m c).read i = (padBlock m c).read i := by
  have hfill : c + (Config.rate - c) = 136 := by simp only [Config.rate]; omega
  have hzero : (m.zeroFill c (Config.rate - c)).wf = true := Memory.wf_zeroFill hwf _ _ hfill.le
  have hdsep := Memory.wf_write hzero (i := c) (by omega)
  rw [read_padBlock hwf hc, padBlockByOr]
  simp only [Memory.read_write (hdsep _), Memory.read_write hzero, Memory.read_zeroFill hwf c _ _ hfill.le, hfill,
    Config.rate, Config.dsep, Config.padEnd, Nat.reduceSub]
  by_cases hlast : i = 135
  · subst hlast
    by_cases hmerge : c = 135
    · simp [hmerge]
    · simp [hc, Ne.symm hmerge, Nat.not_lt.2 hc]
  · rcases Nat.lt_trichotomy i c with hi | rfl | hi
    · simp [hlast, hi, Nat.ne_of_lt hi, Nat.not_le.2 hi]
    · have hi : i < 136 := by omega
      simp [hlast, hi]
    · have hbeyond : 136 ≤ i → m.read i = 0 := Memory.read_beyond hwf
      simpa [hlast, hi.le, Nat.not_lt.2 hi.le, Nat.ne_of_gt hi] using hbeyond

end

/-- Settles O30: both blocks are canonical and hold the same bytes. -/
theorem paddingFormulationsAgree : Obligations.PaddingFormulationsAgree := by
  unfold Obligations.PaddingFormulationsAgree
  intro m c hwf hc
  exact Memory.ext (padBlock_wf hwf hc) (padBlockByOr_wf hwf hc) fun i _ => (read_padBlockByOr hwf hc i).symm

/-! ## The digest -/

/-- Settles O33: the answer carries the image byte at the digest's address, least significant byte first. -/
theorem rddigReadsTheDigestByte : Obligations.RddigReadsTheDigestByte := by
  unfold Obligations.RddigReadsTheDigestByte
  intro s i h hdv
  exact ⟨_, execRddig_accept (by omega) hdv, rfl, _, rfl, imageByteIsLittleEndian s.lanes _⟩

end Sys2Proof.Machine
end

section
/-!
PROOFS. What the core computes (rules R126, R135): the state after the bytes of a message, kept by every word but
`INIT` and `FINAL`, and the lanes that `FINAL` leaves.
-/

namespace Sys2Proof.Machine

/-! ## The command that a word is accepted as -/

/-- The command, with its operand as a byte. -/
def Accepted.command : Accepted → Command
  | .init => .init
  | .absorb b => .absorb b
  | .final => .final
  | .rddig i => .rddig (BitVec.ofNat 8 i.val)
  | .rdcr n => .rdcr (BitVec.ofNat 8 n.val)

/-- A word is accepted as the command it names (rule R76). -/
theorem decodeCommand_of_decodeInPhase {w : CommandWord} {dv : Bool} {a : Accepted}
    (h : decodeInPhase w dv = .ok a) : decodeCommand w = .ok a.command := by
  rw [decodeInPhase_eq] at h
  rcases hc : decodeCommand w with e | c
  · simp [hc] at h
  · cases c <;> simp only [hc] at h
    · cases h; rfl
    all_goals
      split_ifs at h
      cases h
      simp [Accepted.command]

/-- `ABSORB` is accepted in the absorbing phase (rule R155). -/
theorem decodeInPhase_absorb {w : CommandWord} {b : Byte} (h : decodeCommand w = .ok (.absorb b)) :
    decodeInPhase w false = .ok (.absorb b) := by
  rw [decodeInPhase_eq, h]; rfl

/-- `FINAL` is accepted in the absorbing phase (rule R155). -/
theorem decodeInPhase_final : decodeInPhase 0x3000 false = .ok .final := by
  rw [decodeInPhase_eq, decodeCommand_final_iff.2 rfl]; rfl

/-- `INIT` is accepted in both phases (rule R158). -/
theorem decodeInPhase_init (dv : Bool) : decodeInPhase 0x1000 dv = .ok .init := by
  rw [decodeInPhase_eq, decodeCommand_init_iff.2 rfl]

/-- `RDDIG` in range is accepted in the done phase (rules R76, R134). -/
theorem decodeInPhase_rddig {w : CommandWord} {i : Byte} (h : decodeCommand w = .ok (.rddig i)) (hi : i.toNat < 32) :
    decodeInPhase w true = .ok (.rddig ⟨i.toNat, hi⟩) := by
  rw [decodeInPhase_eq, h]
  exact dif_pos hi

/-- A word that names none of `INIT`, `ABSORB` and `FINAL` records a cause at most (rules R56, R136). -/
theorem commandExec_read_or_reject {w : CommandWord} (s : State) (hinit : w ≠ 0x1000) (hfinal : w ≠ 0x3000)
    (habsorb : ∀ b, decodeCommand w ≠ .ok (.absorb b)) :
    (commandExec w s).1 = s ∨ ∃ c, (commandExec w s).1 = s.recordCause c := by
  cases hd : decodeInPhase w s.dv with
  | error c => exact .inr ⟨c, by rw [(commandExec_reject hd).1]⟩
  | ok a =>
    have hc := decodeCommand_of_decodeInPhase hd
    cases a with
    | init => exact absurd (decodeCommand_init_iff.1 hc) hinit
    | absorb b => exact absurd hc (habsorb b)
    | final => exact absurd (decodeCommand_final_iff.1 hc) hfinal
    | rddig i => exact .inl (by rw [(commandExec_rddig hd).1])
    | rdcr n => exact .inl (by rw [(commandExec_rdcr hd).1])

/-! ## Sequences of words -/

@[simp] theorem commandRun_nil (s : State) : commandRun [] s = s := rfl

@[simp] theorem commandRun_cons (w : CommandWord) (ws : List CommandWord) (s : State) :
    commandRun (w :: ws) s = commandRun ws (commandExec w s).1 := rfl

theorem commandRun_append (ws ws' : List CommandWord) (s : State) :
    commandRun (ws ++ ws') s = commandRun ws' (commandRun ws s) := List.foldl_append

theorem absorbedBytes_cons_absorb {w : CommandWord} {b : Byte} (h : decodeCommand w = .ok (.absorb b))
    (ws : List CommandWord) : absorbedBytes (w :: ws) = b :: absorbedBytes ws := by
  simp [absorbedBytes, h]

theorem absorbedBytes_cons_other {w : CommandWord} (h : ∀ b, decodeCommand w ≠ .ok (.absorb b))
    (ws : List CommandWord) : absorbedBytes (w :: ws) = absorbedBytes ws := by
  unfold absorbedBytes
  rw [List.filterMap_cons]
  split
  · rfl
  · next b hb =>
    split at hb
    · next b' hw => exact absurd hw (h b')
    · cases hb

theorem decodeCommand_absorbWord (b : Byte) : decodeCommand (commandWord 2 b) = .ok (.absorb b) :=
  decodeCommand_of_encode rfl

/-- The words of `UPDATE` carry the message's bytes (rule R80). -/
theorem absorbedBytes_updateWords (m : List Byte) : absorbedBytes (updateWords m) = m := by
  induction m with
  | nil => rfl
  | cons b m ih => exact (absorbedBytes_cons_absorb (decodeCommand_absorbWord b) _).trans (congrArg (b :: ·) ih)

/-- A word that names no `ABSORB` is none of the words of `UPDATE`. -/
theorem notMem_updateWords {w : CommandWord} {c : Command} (hw : decodeCommand w = .ok c)
    (hc : ∀ b, c ≠ .absorb b) (m : List Byte) : w ∉ updateWords m := by
  intro hmem
  obtain ⟨b, -, rfl⟩ := List.mem_map.1 hmem
  rw [decodeCommand_absorbWord] at hw
  cases hw
  exact hc b rfl

/-! ## The blocks of a message -/

/-- No byte from the end of the message on. -/
theorem messageByte_beyond {p : List Byte} {j i : Nat} (h : p.length ≤ 136 * j + i) : messageByte p j i = 0 :=
  List.getD_eq_default _ _ h

/-- What is appended to a message leaves its bytes alone. -/
theorem messageByte_append {p : List Byte} {j i : Nat} (h : 136 * j + i < p.length) (l : List Byte) :
    messageByte (p ++ l) j i = messageByte p j i :=
  List.getD_append _ _ _ _ h

/-- The bytes appended to a message come after its own. -/
theorem messageByte_append_right {p : List Byte} {j i : Nat} (h : p.length ≤ 136 * j + i) (l : List Byte) :
    messageByte (p ++ l) j i = l.getD (136 * j + i - p.length) 0 :=
  List.getD_append_right _ _ _ _ h

/-- The bytes of a message with one byte more. -/
theorem messageByte_append_singleton (p : List Byte) (b : Byte) (j i : Nat) :
    messageByte (p ++ [b]) j i = if 136 * j + i = p.length then b else messageByte p j i := by
  rcases Nat.lt_trichotomy (136 * j + i) p.length with h | h | h
  · rw [messageByte_append h, if_neg (Nat.ne_of_lt h)]
  · rw [messageByte_append_right h.ge, if_pos h, h, Nat.sub_self]; rfl
  · rw [messageByte_beyond (by simpa using h), messageByte_beyond h.le, if_neg (Nat.ne_of_gt h)]

/-- What is appended to a message leaves the lanes of its full blocks alone. -/
theorem absorbedLanes_append {p : List Byte} {q : Nat} (h : 136 * q ≤ p.length) (l : List Byte) :
    absorbedLanes (p ++ l) q = absorbedLanes p q := by
  induction q with
  | zero => rw [absorbedLanes_zero, absorbedLanes_zero]
  | succ q ih =>
    have hblock : ∀ i, i < 136 → messageByte (p ++ l) q i = messageByte p q i :=
      fun i hi => messageByte_append (by omega) l
    rw [absorbedLanes_succ, absorbedLanes_succ, ih (by omega), xorIn_congr _ hblock]

/-- The bytes of the padding within its block (rules R127, R135). -/
theorem getD_padding {c k : Nat} (hk : c + k ≤ 135) :
    (padding c).getD k 0 = if k = 0 then (if c = 135 then 0x81 else 0x01) else if c + k = 135 then 0x80 else 0 := by
  unfold padding
  split
  · have hk0 : k = 0 := by omega
    subst hk0; rfl
  · cases k with
    | zero => rfl
    | succ k =>
      rw [List.cons_append, List.getD_cons_succ, if_neg (Nat.succ_ne_zero k)]
      by_cases hzero : k < 134 - c
      · rw [List.getD_append _ _ _ _ (by simpa using hzero), List.getD_replicate _ hzero, if_neg (by omega)]
      · have hlast : k = 134 - c := by omega
        rw [List.getD_append_right _ _ _ _ (by simp [hlast]), if_pos (by omega)]
        simp [hlast]

/-! ## The state after a message's bytes -/

/-- The sponge after the bytes `m`: the full blocks are in the lanes, the bytes left are in the buffer, with zeros
after them (rule R126). -/
structure Absorbed (m : List Byte) (s : State) : Prop where
  cnt : s.cnt.toNat = m.length % 136
  lanes : s.lanes = absorbedLanes m (m.length / 136)
  dv : s.dv = false
  wf : s.buf.wf = true
  read : ∀ i, s.buf.read i = messageByte m (m.length / 136) i

/-- The empty context, as `INIT` and reset leave it. -/
theorem Absorbed.empty {s : State} (hlanes : s.lanes = Vector.replicate 25 0) (hbuf : s.buf = []) (hcnt : s.cnt = 0)
    (hdv : s.dv = false) : Absorbed [] s where
  cnt := by rw [hcnt]; rfl
  lanes := hlanes.trans (absorbedLanes_zero []).symm
  dv := hdv
  wf := by rw [hbuf]; rfl
  read i := by rw [hbuf]; rfl

theorem Absorbed.init (s : State) : Absorbed [] (commandExec 0x1000 s).1 := by
  rw [(commandExec_init (decodeInPhase_init s.dv)).1]
  exact .empty rfl rfl rfl rfl

section
variable {m : List Byte} {s : State} (h : Absorbed m s)
include h

theorem Absorbed.recordCause (c : Cause) : Absorbed m (s.recordCause c) :=
  ⟨h.cnt, h.lanes, h.dv, h.wf, h.read⟩

theorem Absorbed.cnt_le : s.cnt.toNat ≤ 135 := by
  have := h.cnt
  omega

/-- The byte appended at `CNT` is the message's next byte (rule R123). -/
theorem Absorbed.read_append (b : Byte) (i : Nat) :
    (s.append b).buf.read i = messageByte (m ++ [b]) (m.length / 136) i := by
  have hplace : i = s.cnt.toNat ↔ 136 * (m.length / 136) + i = m.length := by
    have := h.cnt
    omega
  rw [State.append_buf, Memory.read_write h.wf, messageByte_append_singleton, h.read]
  simp only [hplace]

/-- The lanes of the blocks that are full before one more byte. -/
theorem Absorbed.lanes_append (l : List Byte) : absorbedLanes (m ++ l) (m.length / 136) = s.lanes := by
  rw [absorbedLanes_append (by omega), h.lanes]

/-- One byte that does not fill the buffer. -/
theorem Absorbed.append {b : Byte} (hc : s.cnt.toNat ≠ 135) : Absorbed (m ++ [b]) (s.append b) := by
  have hcnt := h.cnt
  have hle := h.cnt_le
  have hlen : (m ++ [b]).length = m.length + 1 := List.length_append
  have hdiv : (m.length + 1) / 136 = m.length / 136 := by omega
  refine ⟨?_, ?_, h.dv, Memory.wf_write h.wf (by omega) b, ?_⟩
  · rw [State.append_cnt, toNat_cnt_succ hle, hlen]
    omega
  · rw [hlen, hdiv, h.lanes_append]; rfl
  · rw [hlen, hdiv]
    exact h.read_append b

/-- The byte that fills the buffer: one more block is in the lanes, and none is left (rules R124, R126). -/
theorem Absorbed.absorbBlock {b : Byte} (hc : s.cnt.toNat = 135) : Absorbed (m ++ [b]) (s.append b).absorbBlock := by
  have hcnt := h.cnt
  have hlen : (m ++ [b]).length = m.length + 1 := List.length_append
  have hdiv : (m.length + 1) / 136 = m.length / 136 + 1 := by omega
  refine ⟨?_, ?_, h.dv, rfl, fun i => ?_⟩
  · have hmod : (m.length + 1) % 136 = 0 := by omega
    rw [hlen, hmod]; rfl
  · rw [State.absorbBlock_lanes, hlen, hdiv, absorbedLanes_succ, h.lanes_append, funext (h.read_append b)]; rfl
  · rw [messageByte_beyond (by omega)]; rfl

/-- An accepted `ABSORB` adds its byte to the message. -/
theorem Absorbed.absorb {w : CommandWord} {b : Byte} (hw : decodeCommand w = .ok (.absorb b)) :
    Absorbed (m ++ [b]) (commandExec w s).1 := by
  rw [(commandExec_absorb (by rw [h.dv]; exact decodeInPhase_absorb hw)).1]
  by_cases hfull : s.cnt + 1 = 136
  · rw [State.append_cnt, if_pos hfull]
    exact h.absorbBlock (cnt_succ_eq_136_iff.1 hfull)
  · rw [State.append_cnt, if_neg hfull]
    exact h.append (mt cnt_succ_eq_136_iff.2 hfull)

/-- Any words but `INIT` and `FINAL` add the bytes of their `ABSORB`s to the message. -/
theorem Absorbed.run {ws : List CommandWord} (hinit : 0x1000 ∉ ws) (hfinal : 0x3000 ∉ ws) :
    Absorbed (m ++ absorbedBytes ws) (commandRun ws s) := by
  induction ws generalizing m s with
  | nil => rwa [absorbedBytes, List.filterMap_nil, List.append_nil]
  | cons w ws ih =>
    obtain ⟨hinit', hinit⟩ := not_or.1 (mt List.mem_cons.2 hinit)
    obtain ⟨hfinal', hfinal⟩ := not_or.1 (mt List.mem_cons.2 hfinal)
    rw [commandRun_cons]
    by_cases habsorb : ∃ b, decodeCommand w = .ok (.absorb b)
    · obtain ⟨b, hb⟩ := habsorb
      rw [absorbedBytes_cons_absorb hb, List.append_cons]
      exact ih (h.absorb hb) hinit hfinal
    · have hother := not_exists.1 habsorb
      rw [absorbedBytes_cons_other hother]
      refine ih ?_ hinit hfinal
      rcases commandExec_read_or_reject s (Ne.symm hinit') (Ne.symm hfinal') hother with he | ⟨c, he⟩ <;> rw [he]
      · exact h
      · exact h.recordCause c

/-- The padded buffer holds the last block of the padded message (rules R127, R135). -/
theorem Absorbed.read_padBlk (i : Nat) (hi : i < 136) :
    s.padBlk.buf.read i = messageByte (paddedMessage m) (m.length / 136) i := by
  have hcnt := h.cnt
  have hsplit : m.length = 136 * (m.length / 136) + s.cnt.toNat := by omega
  rw [State.padBlk_buf, read_padBlock h.wf h.cnt_le, paddedMessage, ← hcnt]
  by_cases hlt : i < s.cnt.toNat
  · rw [if_pos hlt, h.read, messageByte_append (by omega)]
  · have hk : 136 * (m.length / 136) + i - m.length = i - s.cnt.toNat := by omega
    have hstart : i = s.cnt.toNat ↔ i - s.cnt.toNat = 0 := by omega
    have hend : i = 135 ↔ s.cnt.toNat + (i - s.cnt.toNat) = 135 := by omega
    rw [if_neg hlt, messageByte_append_right (by omega), hk, getD_padding (by omega)]
    simp only [hstart, hend]

/-- An accepted `FINAL` leaves the lanes of the message's hash and a cleared buffer, in the done phase (rules R130,
R135). -/
theorem Absorbed.final :
    (commandExec 0x3000 s).1 = { s.padBlk.absorbBlock with lanes := hashLanes m, dv := true } := by
  have hlanes : s.padBlk.absorbBlock.lanes = hashLanes m := by
    rw [State.absorbBlock_lanes, State.padBlk_lanes, hashLanes, absorbedLanes_succ, paddedMessage, h.lanes_append,
      ← paddedMessage, xorIn_congr _ h.read_padBlk]
  rw [(commandExec_final (by rw [h.dv]; exact decodeInPhase_final)).1, ← hlanes]

/-- The bytes left in the buffer, by the message's index. -/
theorem Absorbed.read_pending (i : Nat) :
    s.buf.read i = if i < m.length % 136 then m.getD (136 * (m.length / 136) + i) 0 else 0 := by
  rw [h.read]
  split
  · rfl
  · exact messageByte_beyond (by omega)

end

/-- Settles O58: `INIT` and reset leave the state of the empty message, and every other word keeps the state of the
bytes absorbed so far. -/
theorem absorbedBlocksAndPendingBytes : Obligations.AbsorbedBlocksAndPendingBytes := by
  unfold Obligations.AbsorbedBlocksAndPendingBytes
  rintro ws m s t hinit hfinal rfl hrun
  have ht : Absorbed (absorbedBytes ws) t := by
    rcases hrun with rfl | rfl
    · exact (Absorbed.init s).run hinit hfinal
    · exact (Absorbed.empty rfl rfl rfl rfl).run hinit hfinal
  exact ⟨ht.cnt, ht.lanes, ht.dv, ht.wf, ht.read_pending⟩

/-! ## The hash of a message -/

/-- `INIT; UPDATE M; FINAL` ends in the done phase with the lanes of the hash and a buffer just cleared, from any
state (rules R135, R158). -/
theorem commandRun_hashWords (m : List Byte) (s : State) :
    ∃ u : State, commandRun (hashWords m) s = { u.absorbBlock with lanes := hashLanes m, dv := true } := by
  have hupdate := (Absorbed.init s).run (notMem_updateWords (decodeCommand_init_iff.2 rfl) (by simp) m)
    (notMem_updateWords (decodeCommand_final_iff.2 rfl) (by simp) m)
  rw [absorbedBytes_updateWords, List.nil_append] at hupdate
  refine ⟨_, Eq.trans ?_ hupdate.final⟩
  rw [hashWords, commandRun_cons, commandRun_append, commandRun_cons, commandRun_nil]
  rfl

/-- `RDDIG i` in the done phase answers byte `i` of the image (rules R133, R134). -/
theorem commandExec_rddig_response {s : State} (hdv : s.dv = true) (i : Fin 32) :
    (commandExec (commandWord 4 (BitVec.ofNat 8 i.val)) s).2 = 0#2 ++ imageByte s.lanes ⟨i.val, by omega⟩ := by
  have hi : (BitVec.ofNat 8 i.val).toNat = i.val := Nat.mod_eq_of_lt (by omega)
  have hdecode := decodeInPhase_rddig (decodeCommand_of_encode (c := .rddig (BitVec.ofNat 8 i.val)) rfl)
    (by omega)
  rw [(commandExec_rddig (by rw [hdv]; exact hdecode)).1]
  simp only [hi]
  rfl

/-- Settles O59: `FINAL` after the message's `ABSORB`s, and `RDDIG` in the done phase that it leaves. -/
theorem commandsComputeTheHash : Obligations.CommandsComputeTheHash := by
  unfold Obligations.CommandsComputeTheHash
  intro m s
  obtain ⟨u, ht⟩ := commandRun_hashWords m s
  rw [ht]
  exact ⟨rfl, rfl, rfl, rfl, commandExec_rddig_response rfl⟩

end Sys2Proof.Machine
end

section
/-!
PROOFS. The control commands and the sequencer (rules R151, R153, R155, R160 to R163, R195, R218): what `IDLE` does,
the meanings that clear and reject, the count of steps down to `IDLE`, and what the dispatch of a word leaves.
-/

namespace Sys2Proof.Machine

/-! ## `IDLE` -/

/-- `IDLE` takes the word that the host presents when no response waits (rule R160). -/
theorem execIdle_dispatch {s : State} {w : CommandWord} {rest : List HostMove} (hl : s.latch = none)
    (hh : s.host = .present w :: rest) : execIdle s = dispatch w { s with host := rest } := by
  simp [execIdle, hl, hh]

theorem exists_decodeCommand_error {w : CommandWord} (h : illegalWord w) : ∃ e, decodeCommand w = .error e := by
  obtain ⟨-, -, -, -, -, herror⟩ := commandWordsByValue w
  exact herror.2 h

/-- Settles O38: a word that decodes is dispatched as its command, and an illegal one decodes to an error. -/
theorem idleDispatchesTheWord : Obligations.IdleDispatchesTheWord := by
  unfold Obligations.IdleDispatchesTheWord
  intro s w rest hl hh
  rw [exec_idle, execIdle_dispatch hl hh]
  refine ⟨fun i hi => ?_, fun hill => ?_⟩
  · rw [decodeTableWord_command] at hi
    obtain ⟨c, hc, rfl⟩ := decodeCode_command_eq_some.1 hi
    exact dispatch_ok hc _
  · obtain ⟨e, he⟩ := exists_decodeCommand_error hill
    exact dispatch_error he _

/-- Settles O37: a response that waits is delivered; without one and without a word `IDLE` waits. -/
theorem idleDeliversOrWaits : Obligations.IdleDeliversOrWaits := by
  unfold Obligations.IdleDeliversOrWaits
  refine ⟨fun s r hl => ?_, fun s hl hh => execIdle_wait hl hh⟩
  rw [exec_idle, execIdle_deliver hl, State.deliver, hl, Option.toList_some]

/-- Settles O8: a core that is not ready holds the word. -/
theorem busyCoreAcceptsNothing : Obligations.BusyCoreAcceptsNothing := by
  unfold Obligations.BusyCoreAcceptsNothing
  exact fun _ _ _ hh hbusy => step_holds_word hh hbusy

/-! ## The meanings of the commands -/

/-- Settles O35: what `INIT` clears and what it answers. -/
theorem initClearsTheContext : Obligations.InitClearsTheContext := by
  unfold Obligations.InitClearsTheContext
  exact fun s => ⟨s.clearContext.answer 0, exec_init s, rfl, fun _ h => Vector.getElem_replicate h, Memory.read_nil⟩

/-- Settles O41: each rejection by the check that fails, the range before the phase. -/
theorem meaningsRejectOutOfRangeAndPhase : Obligations.MeaningsRejectOutOfRangeAndPhase := by
  unfold Obligations.MeaningsRejectOutOfRangeAndPhase
  exact fun s => ⟨fun hdv b => execAbsorb_done hdv b, fun hdv => execFinal_done hdv, fun _ hi => execRddig_range hi s,
    fun hdv _ hi => execRddig_early (by omega) hdv, fun _ hn => execRdcr_range hn s⟩

/-! ## The count of steps -/

/-- `IOTA` brings the next round's `THETA`, or `BUFCLR` after the last round (rules R95, R161). -/
theorem State.iotaStep_stepsLeft (s : State) :
    s.iotaStep.stepsLeft + 1 = 5 * (23 - s.rnd.val) + 2 + s.fin.toNat := by
  rcases Nat.lt_or_ge s.rnd.val 23 with h | h
  · have hrnd := nextRound_val_of_lt h
    simp only [State.stepsLeft, State.iotaStep_uop, afterIota_of_lt h, State.iotaStep_rnd, State.iotaStep_fin, hrnd]
    omega
  · simp only [State.stepsLeft, State.iotaStep_uop, afterIota_of_last (by omega : s.rnd.val = 23), State.iotaStep_fin]
    omega

/-- Each micro-operation leaves one step fewer (rule R161). -/
theorem busy_stepsLeft {s t : State} (hu : s.uop ≠ .idle) (h : exec s.uop.instr s = .next t) :
    t.stepsLeft + 1 = s.stepsLeft := by
  cases hs : s.uop with
  | idle => exact absurd hs hu
  | iota =>
    rw [hs] at h
    cases h
    rw [State.iotaStep_stepsLeft, State.stepsLeft, hs]
  | bufclr =>
    rw [hs] at h
    cases h
    cases hfin : s.fin <;> simp [State.stepsLeft, hs, hfin]
  | setdv =>
    rw [hs] at h
    cases h
    simp [State.stepsLeft, hs]
  | theta | rho | pi | chi | xorin =>
    rw [hs] at h
    cases h
    simp only [State.stepsLeft, hs]
    exact Nat.add_right_comm ..

/-- Settles O48: a micro-operation answers and counts down, and the end of the host's move does not count. -/
theorem everySequencerStepCountsDown : Obligations.EverySequencerStepCountsDown := by
  unfold Obligations.EverySequencerStepCountsDown
  intro s hu hr
  obtain ⟨t, he⟩ := busy_exec_next hu
  refine ⟨_, step_of_exec hr he, ?_⟩
  rw [← busy_stepsLeft hu he]
  split <;> rfl

/-! ## What the dispatch of a word leaves -/

/-- The state that the dispatch of a word leaves, by what the word is decoded to in the phase (rule R160). -/
def State.dispatched (s : State) : Except Cause Accepted → State
  | .error c => s.reject c
  | .ok .init => s.clearContext.answer 0
  | .ok (.absorb b) => s.absorbStep b
  | .ok .final => s.finalStep
  | .ok (.rddig i) => s.answer (digestByte s.lanes i)
  | .ok (.rdcr n) => s.answer (controlRegister s n)

/-- The checks that the meanings make are those of rule R76. -/
theorem dispatch_eq_dispatched {s : State} (hc : s.cnt.toNat ≤ 135) (w : CommandWord) :
    dispatch w s = .next (s.dispatched (decodeInPhase w s.dv)) := by
  rw [decodeInPhase_eq]
  cases hw : decodeCommand w with
  | error e => exact dispatch_error hw s
  | ok c =>
    rw [dispatch_ok hw]
    cases c with
    | init => rfl
    | absorb b =>
      cases hdv : s.dv with
      | false => exact execAbsorb_accept hdv (by omega) b
      | true => exact execAbsorb_done hdv b
    | final =>
      cases hdv : s.dv with
      | false => exact execFinal_accept hdv (by omega)
      | true => exact execFinal_done hdv
    | rddig i =>
      rcases execRddig_cases i s with ⟨hi, he⟩ | ⟨hi, hdv, he⟩ | ⟨hi, hdv, he⟩
      · exact he.trans (by simp [State.dispatched, Nat.not_lt.2 hi])
      · exact he.trans (by simp [State.dispatched, hi, hdv])
      · exact he.trans (by simp [State.dispatched, hi, hdv])
    | rdcr n =>
      rcases execRdcr_cases n s with ⟨hn, he⟩ | ⟨hn, he⟩
      · exact he.trans (by simp [State.dispatched, Nat.not_lt.2 hn])
      · exact he.trans (by simp [State.dispatched, hn])

/-- The byte that fills the buffer is the one appended at 135 (rule R124). -/
theorem append_fills_iff {s : State} {b : Byte} : (s.append b).cnt = 136 ↔ s.cnt = 135 :=
  cnt_succ_eq_136_iff.trans (BitVec.toNat_eq (x := s.cnt) (y := 135)).symm

/-- The steps left after the dispatch are those of the command level (rules R161, R218). -/
theorem stepsLeft_dispatched (w : CommandWord) (s : State) :
    (s.dispatched (decodeInPhase w s.dv)).stepsLeft = sequencerSteps w s := by
  cases hd : decodeInPhase w s.dv with
  | error c => rw [(commandExec_reject hd).2]; rfl
  | ok a =>
    cases a with
    | init => rw [(commandExec_init hd).2]; rfl
    | absorb b =>
      rw [(commandExec_absorb hd).2, State.dispatched]
      by_cases hfull : s.cnt = 135
      · rw [if_pos hfull, State.absorbStep_of_eq ((append_fills_iff (b := b)).2 hfull)]; rfl
      · rw [if_neg hfull, State.absorbStep_of_ne (mt (append_fills_iff (b := b)).1 hfull)]; rfl
    | final => rw [(commandExec_final hd).2]; rfl
    | rddig i => rw [(commandExec_rddig hd).2]; rfl
    | rdcr n => rw [(commandExec_rdcr hd).2]; rfl

/-- `ABSORB` and `FINAL` are accepted in the absorbing phase only (rule R155). -/
theorem dv_eq_false_of_decodeInPhase {w : CommandWord} {dv : Bool} {a : Accepted} (h : decodeInPhase w dv = .ok a)
    (ha : a = .final ∨ ∃ b, a = .absorb b) : dv = false := by
  cases dv with
  | false => rfl
  | true =>
    have hc := decodeCommand_of_decodeInPhase h
    rw [decodeInPhase_eq, hc] at h
    rcases ha with rfl | ⟨b, rfl⟩ <;> cases h

/-- The number of steps after dispatch by the value of the word (rules R77, R218). -/
theorem sequencerSteps_by_value (w : CommandWord) (s : State) :
    sequencerSteps w s =
      if s.dv = false ∧ s.cnt.toNat = 135 ∧ 0x2000 ≤ w.toNat ∧ w.toNat ≤ 0x20FF then 122
      else if s.dv = false ∧ w = 0x3000 then 123
      else 0 := by
  have cnt_eq : s.cnt = 135 ↔ s.cnt.toNat = 135 := BitVec.toNat_eq
  split_ifs with habsorb hfinal
  · obtain ⟨hdv, hcnt, hw⟩ := habsorb
    obtain ⟨b, hb⟩ := exists_byte_offset.2 hw
    rw [(commandExec_absorb (hdv ▸ decodeInPhase_absorb (decodeCommand_absorb_iff.2 hb))).2, if_pos (cnt_eq.2 hcnt)]
  · obtain ⟨hdv, rfl⟩ := hfinal
    exact (commandExec_final (hdv ▸ decodeInPhase_final)).2
  · cases hd : decodeInPhase w s.dv with
    | error c => exact (commandExec_reject hd).2
    | ok a =>
      have hc := decodeCommand_of_decodeInPhase hd
      cases a with
      | init => exact (commandExec_init hd).2
      | absorb b =>
        have hdv := dv_eq_false_of_decodeInPhase hd (.inr ⟨b, rfl⟩)
        rw [(commandExec_absorb hd).2, if_neg fun hcnt => habsorb ⟨hdv, cnt_eq.1 hcnt, absorbWord_range hc⟩]
      | final => exact absurd ⟨dv_eq_false_of_decodeInPhase hd (.inl rfl), finalWord_eq hc⟩ hfinal
      | rddig i => exact (commandExec_rddig hd).2
      | rdcr n => exact (commandExec_rdcr hd).2

/-- A step that accepts a word leaves what its dispatch leaves. -/
theorem step_dispatched {s : State} {w : CommandWord} {rest : List HostMove} (h : s.ReadyFor w rest)
    (hc : s.cnt.toNat ≤ 135) :
    step s = .next (({ s with host := rest } : State).dispatched (decodeInPhase w s.dv)) :=
  (step_ready h).trans (dispatch_eq_dispatched (s := { s with host := rest }) hc w)

/-- Settles O49: the dispatch leaves the steps of the command level, which the value of the word gives. -/
theorem sequencerStepsPerCommand : Obligations.SequencerStepsPerCommand := by
  unfold Obligations.SequencerStepsPerCommand
  intro s w rest hready hc
  refine ⟨_, step_dispatched hready hc, ?_⟩
  rw [← sequencerSteps_by_value]
  exact stepsLeft_dispatched w { s with host := rest }

end Sys2Proof.Machine
end

section
/-!
PROOFS. The two levels of description agree (rules R101, R152, R161, R164): the micro-program of one block, and from the
dispatch of a word through its sequencer steps to the delivery of its response.
-/

namespace Sys2Proof.Machine

/-! ## The micro-program of one block -/

/-- The rounds change the lanes and `SEQ` alone. -/
theorem turns_roundStep_frame (s : State) (n : Nat) :
    turns State.roundStep s n =
      { s with
        lanes := (turns State.roundStep s n).lanes
        rnd := (turns State.roundStep s n).rnd
        uop := (turns State.roundStep s n).uop } := by
  induction n with
  | zero => rfl
  | succ n ih =>
    unfold turns
    split
    · conv_lhs => rw [ih]
      rfl
    · exact ih

/-- `PERMUTE` is `KeccakF` on the lanes, with `SEQ` left at `BUFCLR` (rule R101). -/
theorem State.permuteStep_eq (s : State) :
    s.permuteStep = { s with lanes := keccakF s.lanes, rnd := 0, uop := .bufclr } := by
  have huop : s.permuteStep.uop = .bufclr := by
    rw [State.permuteStep, turns_succ _ _ (by decide), State.roundStep_uop, afterIota_of_last rfl]
  have hrnd : s.permuteStep.rnd = 0 := by
    rw [State.permuteStep, turns_succ _ _ (by decide), State.roundStep_rnd, nextRound_of_last rfl]
  refine (turns_roundStep_frame s 24).trans ?_
  rw [← State.permuteStep_lanes, ← huop, ← hrnd]
  rfl

/-- A run of a busy sequencer continued by another. -/
theorem BusyReaches.trans {j k : Nat} {s t u : State} (h : BusyReaches j s t)
    (h' : BusyReaches k { t with host := dropPauses j s.host } u) : BusyReaches (j + k) s u := by
  rw [BusyReaches, steps_add k h, h', dropPauses_add]

/-- From `XORIN` the sequencer absorbs the block, and ends it at `IDLE` or goes on to `SETDV` (rules R121, R122,
R161). -/
theorem busyReaches_block {s : State} (hu : s.uop = .xorin) (hm : HostMove.reset ∉ s.host) :
    BusyReaches 122 s { s.absorbBlock with rnd := 0, uop := if s.fin then .setdv else .idle } := by
  have hxorin : BusyReaches 1 s s.xorinStep := (BusyReaches.refl s).succ hm fun _ => by rw [hu]; rfl
  have hrounds := busyReaches_rounds (s := { s.xorinStep with host := dropPauses 1 s.host }) rfl rfl
    (reset_notMem_dropPauses hm 1) (Nat.le_refl 24)
  have hpermute := hxorin.trans hrounds
  rw [← State.permuteStep, State.permuteStep_eq] at hpermute
  exact hpermute.succ hm fun _ => rfl

/-- The micro-program of a `FINAL` ends with `SETDV` (rules R132, R161). -/
theorem busyReaches_lastBlock {s : State} (hu : s.uop = .xorin) (hfin : s.fin = true) (hm : HostMove.reset ∉ s.host) :
    BusyReaches 123 s { s.absorbBlock with rnd := 0, dv := true, fin := false, uop := .idle } :=
  (busyReaches_block hu hm).succ hm fun _ => by rw [hfin]; rfl

/-! ## The command level -/

/-- `Exec` leaves `SEQ.uop`, the latch and the record of responses alone (rule R152). -/
theorem commandExec_frame (w : CommandWord) (s : State) :
    (commandExec w s).1.uop = s.uop ∧ (commandExec w s).1.latch = s.latch ∧ (commandExec w s).1.rsp = s.rsp := by
  unfold commandExec
  split
  case h_3 => dsimp only; split <;> exact ⟨rfl, rfl, rfl⟩
  all_goals exact ⟨rfl, rfl, rfl⟩

/-- `Exec` does not look at the host's moves. -/
theorem commandExec_withHost (w : CommandWord) (s : State) (moves : List HostMove) :
    commandExec w { s with host := moves } =
      ({ (commandExec w s).1 with host := moves }, (commandExec w s).2) := by
  unfold commandExec
  dsimp only
  split
  case h_3 b _ =>
    have hcnt : (State.append b { s with host := moves }).cnt = (s.append b).cnt := rfl
    by_cases hfull : (s.append b).cnt = 136
    · rw [if_pos (hcnt.trans hfull), if_pos hfull]; rfl
    · rw [if_neg (hcnt ▸ hfull), if_neg hfull]; rfl
  all_goals rfl

theorem State.answer_of_idle {s : State} (hu : s.uop = .idle) (d : Byte) :
    s.answer d = { s with latch := some (respond 0 d) } := by
  rw [State.answer, hu]

theorem State.reject_of_idle {s : State} (hu : s.uop = .idle) (c : Cause) :
    s.reject c = { s.recordCause c with latch := some (respond c.code 0) } := by
  rw [State.reject, State.recordCause, hu]

/-- The state that `Exec` leaves, with the response that it gives waiting in the latch (rules R152, R163). -/
def State.executed (w : CommandWord) (s : State) : State :=
  { (commandExec w s).1 with latch := some (commandExec w s).2 }

theorem State.executed_uop (w : CommandWord) (s : State) : (s.executed w).uop = s.uop :=
  (commandExec_frame w s).1

theorem State.deliver_executed {s : State} (hl : s.latch = none) (w : CommandWord) :
    (s.executed w).deliver =
      { (commandExec w s).1 with rsp := s.rsp ++ [(commandExec w s).2] } := by
  obtain ⟨-, hlatch, hrsp⟩ := commandExec_frame w s
  simp [State.deliver, State.executed, hlatch, hrsp, hl]

/-- From the dispatch of a word at an idle core, the sequencer steps of the word lead to the state of `Exec` with its
response in the latch. -/
theorem busyReaches_executed (w : CommandWord) {s : State} (hu : s.uop = .idle) (hrnd : s.rnd = 0)
    (hfin : s.fin = false) (hm : HostMove.reset ∉ s.host) :
    BusyReaches (sequencerSteps w s) (s.dispatched (decodeInPhase w s.dv)) (s.executed w) := by
  cases hd : decodeInPhase w s.dv with
  | error c =>
    obtain ⟨hexec, hsteps⟩ := commandExec_reject hd
    rw [State.executed, hexec, hsteps, State.dispatched, State.reject_of_idle hu]
    exact .refl _
  | ok a =>
    cases a with
    | init =>
      obtain ⟨hexec, hsteps⟩ := commandExec_init hd
      rw [State.executed, hexec, hsteps, State.dispatched, State.answer_of_idle (by simpa using hu)]
      exact .refl _
    | absorb b =>
      obtain ⟨hexec, hsteps⟩ := commandExec_absorb hd
      rw [State.executed, hexec, hsteps, State.dispatched]
      by_cases hfull : s.cnt = 135
      · have hsucc : (s.append b).cnt = 136 := append_fills_iff.2 hfull
        rw [if_pos hfull, if_pos hsucc, State.absorbStep_of_eq hsucc]
        have hblock := busyReaches_block (s := ((s.append b).answer 0).startBlock false) rfl hm
        simpa [State.absorbBlock, State.bufClr, State.startBlock, State.answer, hu, hrnd, hfin] using hblock
      · have hsucc : (s.append b).cnt ≠ 136 := mt append_fills_iff.1 hfull
        rw [if_neg hfull, if_neg hsucc, State.absorbStep_of_ne hsucc, State.answer_of_idle (by simpa using hu)]
        exact .refl _
    | final =>
      obtain ⟨hexec, hsteps⟩ := commandExec_final hd
      rw [State.executed, hexec, hsteps, State.dispatched]
      have hblock := busyReaches_lastBlock (s := s.finalStep) rfl rfl hm
      rw [← hrnd, ← hfin, ← hu] at hblock
      exact hblock
    | rddig i =>
      obtain ⟨hexec, hsteps⟩ := commandExec_rddig hd
      rw [State.executed, hexec, hsteps, State.dispatched, State.answer_of_idle hu]
      exact .refl _
    | rdcr n =>
      obtain ⟨hexec, hsteps⟩ := commandExec_rdcr hd
      rw [State.executed, hexec, hsteps, State.dispatched, State.answer_of_idle hu]
      exact .refl _

@[simp] theorem State.dispatched_host (s : State) (d : Except Cause Accepted) : (s.dispatched d).host = s.host := by
  rcases d with c | _ | b | _ | i | n
  case ok.absorb => exact s.absorbStep_host b
  all_goals rfl

/-- One step more delivers the response (rule R163). -/
theorem busyReaches_delivered (w : CommandWord) {s : State} (hu : s.uop = .idle) (hl : s.latch = none)
    (hrnd : s.rnd = 0) (hfin : s.fin = false) (hm : HostMove.reset ∉ s.host) :
    BusyReaches (sequencerSteps w s + 1) (s.dispatched (decodeInPhase w s.dv))
      { (commandExec w s).1 with rsp := s.rsp ++ [(commandExec w s).2] } := by
  have hinstr : (s.executed w).uop.instr = .idle := by rw [State.executed_uop, hu]; rfl
  rw [← State.deliver_executed hl]
  refine (busyReaches_executed w hu hrnd hfin hm).succ (by simpa using hm) fun moves => ?_
  rw [hinstr]
  exact execIdle_deliver (s := { s.executed w with host := moves }) rfl

/-- Settles O50: the step that accepts the word, its sequencer steps, and the step that delivers the response. -/
theorem microStepsReachTheCommandLevel : Obligations.MicroStepsReachTheCommandLevel := by
  unfold Obligations.MicroStepsReachTheCommandLevel
  intro s w rest hready hm hinv
  have ⟨hu, hl, _⟩ := hready
  obtain ⟨hcnt, -, hrnd, hfin, -⟩ := hinv.idleRules hu
  have hrun := busyReaches_delivered w (s := { s with host := rest }) hu hl hrnd hfin hm
  rw [commandExec_withHost, BusyReaches, State.dispatched_host] at hrun
  rw [Nat.add_comm 2, Nat.add_comm 1, steps_succ (k := sequencerSteps w s + 1) (step_dispatched hready hcnt)]
  exact hrun

end Sys2Proof.Machine
end

section
/-!
PROOFS. Rejection (rules R76, R77, R155, R181, R183 to R185): the cause of each kind of rejected word by the word's
value, and what the step that rejects it leaves.
-/

namespace Sys2Proof.Machine

section
variable {w : CommandWord} {s : State}

theorem dispatch_illegal (h : illegalWord w) : dispatch w s = .next (s.reject .illegal) := by
  obtain ⟨e, he⟩ := exists_decodeCommand_error h
  exact dispatch_error he s

/-- The two commands with a bounded operand reject it in both phases (rule R76 lines 4 and 5). -/
theorem dispatch_outOfRange (h : outOfRangeWord w) : dispatch w s = .next (s.reject .range) := by
  obtain ⟨hlo, hhi⟩ | ⟨hlo, hhi⟩ := h
  · obtain ⟨i, hi⟩ := exists_byte_offset.2 (⟨by omega, by omega⟩ : 0x4000 ≤ w.toNat ∧ w.toNat ≤ 0x4000 + 255)
    exact (dispatch_ok (decodeCommand_rddig_iff.2 hi) s).trans (execRddig_range (by omega) s)
  · obtain ⟨n, hn⟩ := exists_byte_offset.2 (⟨by omega, by omega⟩ : 0x5000 ≤ w.toNat ∧ w.toNat ≤ 0x5000 + 255)
    exact (dispatch_ok (decodeCommand_rdcr_iff.2 hn) s).trans (execRdcr_range (by omega) s)

/-- `ABSORB` and `FINAL` come too late in the done phase, `RDDIG` with its index in range too early in the absorbing
phase (rule R155). -/
theorem dispatch_outOfPhase (h : outOfPhaseWord w s.dv) : dispatch w s = .next (s.reject .seq) := by
  obtain ⟨hdv, habsorb | rfl⟩ | ⟨hdv, hlo, hhi⟩ := h
  · obtain ⟨b, hb⟩ := exists_byte_offset.2 habsorb
    exact (dispatch_ok (decodeCommand_absorb_iff.2 hb) s).trans (execAbsorb_done hdv b)
  · exact (dispatch_ok (decodeCommand_final_iff.2 rfl) s).trans (execFinal_done hdv)
  · obtain ⟨i, hi⟩ := exists_byte_offset.2 (⟨hlo, by omega⟩ : 0x4000 ≤ w.toNat ∧ w.toNat ≤ 0x4000 + 255)
    exact (dispatch_ok (decodeCommand_rddig_iff.2 hi) s).trans (execRddig_early (by omega) hdv)

/-- A step that rejects the word takes it off the port, records the cause if it is the first, and latches the response
of the cause (rules R184, R185). -/
theorem step_rejected {rest : List HostMove} {c : Cause} (hready : s.ReadyFor w rest)
    (hd : dispatch w { s with host := rest } = .next (({ s with host := rest } : State).reject c)) :
    step s = .next { s with
      host := rest, err := if s.err = 0 then c.code else s.err, latch := some (respond c.code 0) } := by
  have ⟨hu, _, _⟩ := hready
  rw [step_ready hready, hd, State.reject_of_idle (s := { s with host := rest }) hu, State.recordCause]

end

/-- Settles O39: the dispatch rejects each kind of word with its cause. By their values no word is of two kinds, so the
proof does not use the exclusions that state the priority. -/
theorem rejectionByPriority : Obligations.RejectionByPriority := by
  unfold Obligations.RejectionByPriority
  intro s w rest hready
  exact ⟨fun hillegal => step_rejected hready (dispatch_illegal hillegal),
    fun _ hrange => step_rejected hready (dispatch_outOfRange hrange),
    fun _ _ hphase => step_rejected hready (dispatch_outOfPhase hphase)⟩

end Sys2Proof.Machine
end

section
/-!
PROOFS. The composites (rules R100, R101): a round is its five micro-operations, and `PERMUTE` is the 24 rounds.
-/

namespace Sys2Proof.Machine

/-- Settles O20: the round is defined by the five steps in this order; round 23 is the last. -/
theorem roundIsTheFiveSteps : Obligations.RoundIsTheFiveSteps := by
  unfold Obligations.RoundIsTheFiveSteps
  intro s r
  refine ⟨s.roundStep r, exec_round r s, rfl, fun h => ?_, fun h => ?_⟩
  · exact ⟨nextRound_val_of_lt h, afterIota_of_lt h⟩
  · exact ⟨congrArg Fin.val (nextRound_of_last h), afterIota_of_last h⟩

/-- Settles O21: the chain of lanes is that of the loop's turns. -/
theorem permuteIsTheTwentyFourRounds : Obligations.PermuteIsTheTwentyFourRounds := by
  unfold Obligations.PermuteIsTheTwentyFourRounds
  intro s
  have hlanes := s.permuteStep_lanes
  have hframe : s.permuteStep = { s with lanes := s.permuteStep.lanes, rnd := 0, uop := .bufclr } := by
    rw [hlanes]
    exact s.permuteStep_eq
  refine ⟨s.permuteStep, exec_permute s, hframe, hlanes, turns roundFunction s.lanes, rfl, ?_, fun r => ?_⟩
  · exact turns_roundStep_lanes s 24
  · exact turns_succ roundFunction s.lanes r.isLt

end Sys2Proof.Machine
end

section
/-!
PROOFS. The representation of `BUF` (rules R36, R50, R123; notes/assumptions/5.md and 6.md): every instruction keeps its
canonical form, and a count beyond the buffer has no address.
-/

namespace Sys2Proof.Machine

/-- The meaning of a command is the dispatch of the command's word (rules R152, R160). -/
theorem exists_dispatch_eq_exec (c : Command) : ∃ w, ∀ s, dispatch w s = exec c.instr s := by
  obtain ⟨w, hw⟩ := encode_command c
  exact ⟨w, dispatch_ok (decodeCommand_of_encode hw)⟩

section
variable {s t : State}

/-- An accepted `ABSORB` writes one byte and an accepted `FINAL` the padded block, both at a `CNT` inside the buffer. -/
theorem dispatch_keeps_canonical (hs : s.buf.wf = true) {w : CommandWord} (h : dispatch w s = .next t) :
    t.buf.wf = true := by
  rcases dispatch_cases w s with ⟨c, hd⟩ | ⟨-, hd⟩ | ⟨b, -, -, hc, hd⟩ | ⟨-, -, hc, hd⟩ | ⟨d, hd⟩ | ⟨-, hd⟩
  all_goals cases hd.symm.trans h
  · exact hs
  · exact Memory.wf_nil
  · rw [State.absorbStep_buf]
    exact Memory.wf_write hs hc b
  · exact padBlock_wf hs (Nat.le_of_lt_succ hc)
  · exact hs

theorem command_keeps_canonical (hs : s.buf.wf = true) (c : Command) (h : exec c.instr s = .next t) :
    t.buf.wf = true := by
  obtain ⟨w, hw⟩ := exists_dispatch_eq_exec c
  exact dispatch_keeps_canonical hs ((hw s).trans h)

theorem execIdle_keeps_canonical (hs : s.buf.wf = true) (h : execIdle s = .next t) : t.buf.wf = true := by
  rcases execIdle_cases s with ⟨r, -, he⟩ | ⟨w, rest, -, -, he⟩ | ⟨-, -, he⟩
  · cases he.symm.trans h
    exact hs
  · exact dispatch_keeps_canonical (s := { s with host := rest }) hs (he.symm.trans h)
  · cases he.symm.trans h
    exact hs

/-- The commands and `IDLE` write as the dispatch of a word does, `BUFCLR` empties the buffer, and no other
micro-operation touches it. -/
theorem exec_keeps_canonical (hs : s.buf.wf = true) {i : Instr} (h : exec i s = .next t) : t.buf.wf = true := by
  cases i with
  | init => exact command_keeps_canonical hs .init h
  | absorb b => exact command_keeps_canonical hs (.absorb b) h
  | final => exact command_keeps_canonical hs .final h
  | rddig i => exact command_keeps_canonical hs (.rddig i) h
  | rdcr n => exact command_keeps_canonical hs (.rdcr n) h
  | idle => exact execIdle_keeps_canonical hs h
  | bufclr => cases h; exact Memory.wf_nil
  | permute =>
    cases h
    rw [State.permuteStep_eq]
    exact hs
  | theta | rho | pi | chi | iota | xorin | setdv | round => cases h; exact hs

end

/-- Settles O31: the laws of a write, the extensionality of the canonical form, and that every instruction keeps it. -/
theorem paddedAndAppendedBuffersStayCanonical : Obligations.PaddedAndAppendedBuffersStayCanonical := by
  unfold Obligations.PaddedAndAppendedBuffersStayCanonical
  refine ⟨fun m i v hm hi => ⟨Memory.wf_write hm (Nat.lt_succ_of_le hi) v, ?_, fun j hj => ?_⟩, ?_, ?_⟩
  · rw [Memory.read_write hm, if_pos rfl]
  · rw [Memory.read_write hm, if_neg hj]
  · exact fun m m' hm hm' heq => Memory.ext hm hm' fun i hi => heq i (Nat.le_of_lt_succ hi)
  · exact fun s t i hs h => exec_keeps_canonical hs h

/-- Settles O32: in the absorbing phase both commands check the count before they write. -/
theorem countBeyondTheBufferFaults : Obligations.CountBeyondTheBufferFaults := by
  unfold Obligations.CountBeyondTheBufferFaults
  exact fun s b hdv hc => ⟨execAbsorb_beyond hdv hc b, execFinal_beyond hdv hc⟩

end Sys2Proof.Machine
end

section
/-!
PROOFS. The machine's interface and reset (rules R78, R210, R212; notes/assumptions/4.md and 13.md): what the step runs
of a code placed in a state, and that reset comes before everything.
-/

namespace Sys2Proof.Machine

/-! ## A code placed in a state -/

/-- A row of 16 bits is a command word (format CMD16). -/
theorem tableCode_command_iff {w : Nat} {k : Code} :
    tableCode 16 w = some k ↔ w < 65536 ∧ k = .command (BitVec.ofNat 16 w) := by
  simp [tableCode, eq_comm]

/-- A row of one byte is a sequencer code when its high bits are 0 (notes/assumptions/16.md). -/
theorem tableCode_uop_iff {w : Nat} {k : Code} : tableCode 8 w = some k ↔ w < 16 ∧ k = .uop (BitVec.ofNat 4 w) := by
  simp [tableCode, eq_comm]

theorem decodeTableWord_eq_some {nbits w : Nat} {i : Instr} :
    decodeTableWord nbits w = some i ↔ ∃ k, tableCode nbits w = some k ∧ decodeCode k = some i := by
  cases h : tableCode nbits w <;> simp [decodeTableWord, h]

theorem State.withFetchWord_of_tableCode {nbits w : Nat} {k : Code} (h : tableCode nbits w = some k) (s : State) :
    s.withFetchWord nbits w = s.placeCode k := by
  rw [State.withFetchWord, h]

/-- The decoder and the sequencer read the same instruction from each of the 16 codes (rule R78). -/
theorem decodeUop_eq_ofCode : ∀ c : BitVec 4, decodeUop c = (Uop.ofCode c).map Uop.instr := by decide

theorem Uop.code_of_ofCode : ∀ c : BitVec 4, ∀ u ∈ Uop.ofCode c, u.code = c := by decide

/-- A word that is presented to a core made ready is dispatched in the next step. -/
theorem step_presentNext (s : State) (w : CommandWord) :
    step (s.presentNext w) = dispatch w { s with uop := .idle, latch := none, rsp := s.rsp ++ s.latch.toList } :=
  step_ready (s := s.presentNext w) ⟨rfl, rfl, rfl⟩

/-- With no move of the host to come, the step is the instruction of `SEQ.uop`. -/
theorem step_of_host_nil {s : State} (h : s.host = []) : step s = exec s.uop.instr s := by
  have hreset : s.resetAsserted = false := by rw [State.resetAsserted, h]
  have hpause : s.pausing = false := by rw [State.pausing, h]
  rw [step_run hreset, endMove, if_neg (by simp [hpause])]

/-- Settles O7: a command word is presented to a core made ready, a sequencer code is put into `SEQ.uop`. -/
theorem placedCodeIsWhatTheStepRuns : Obligations.PlacedCodeIsWhatTheStepRuns := by
  unfold Obligations.PlacedCodeIsWhatTheStepRuns
  refine ⟨fun s w i h => ?_, fun s w i h hhost => ?_⟩
  all_goals obtain ⟨k, hk, hi⟩ := decodeTableWord_eq_some.1 h
  · obtain ⟨-, rfl⟩ := tableCode_command_iff.1 hk
    obtain ⟨c, hc, rfl⟩ := decodeCode_command_eq_some.1 hi
    rw [State.withFetchWord_of_tableCode hk, State.placeCode, step_presentNext, dispatch_ok hc]
  · obtain ⟨hw, rfl⟩ := tableCode_uop_iff.1 hk
    obtain ⟨u, hu, rfl⟩ := Option.map_eq_some_iff.1 ((decodeUop_eq_ofCode _).symm.trans hi)
    have hplaced : s.withFetchWord 8 w = s.atUop u := by
      rw [State.withFetchWord_of_tableCode hk, State.placeCode, hu]
    rw [hplaced]
    refine ⟨?_, step_of_host_nil ?_⟩
    · rw [State.atUop_uop, Uop.code_of_ofCode _ u hu, BitVec.toNat_ofNat, Nat.mod_eq_of_lt hw]
    · rw [State.atUop_host, hhost]
      rfl

/-! ## Reset -/

/-- Settles O10: the core is not ready while reset is asserted, and the step takes the reset whatever the state. -/
theorem resetOverridesEverything : Obligations.ResetOverridesEverything := by
  unfold Obligations.ResetOverridesEverything
  intro s rest hhost
  have hreset : s.resetAsserted = true := by rw [State.resetAsserted, hhost]
  constructor
  · rw [State.cmdReady, hreset, Bool.not_true, Bool.and_false]
  · rw [step_reset hreset, State.takeReset, hhost, List.tail_cons]

end Sys2Proof.Machine
end
